-- ==== Sys2Proof/Word.lean ====
section
/-! DEFINITION. The word types of the decoder's formats (spec/30_encoding.md, spec/10_state.md). -/

namespace Sys2Proof

/-- Format `W32` (R70): the 32 bits of one single-precision word, bit 31 the first character. -/
abbrev W32 := BitVec 32

/-- Format `T38` (R71): the transaction word `{in_len, in_bits}`. -/
abbrev T38 := BitVec 38

/-- Format `PMODE` (R82): the Bit Parser's mode flag, 0 = Integer, 1 = Fractional. -/
abbrev PMode := BitVec 1

/-- The value of `in_len` (R27). -/
abbrev Len := BitVec 6

/-- The sign field (R70). -/
abbrev SignField := BitVec 1

/-- The exponent field (R70). -/
abbrev ExpField := BitVec 8

/-- The fraction field (R70). -/
abbrev FracField := BitVec 23

/-- The 64-bit result (R32). -/
abbrev Value64 := BitVec 64

end Sys2Proof
end

