-- ==== Sys2Proof/Config.lean ====
section
/-! DEFINITION. What is fixed when the decoder is built (spec/00_scope.md R7, R8) and the values the spec leaves open. -/

namespace Sys2Proof

/-- R7 `WORD_BITS`: the only legal number of characters, as the 6-bit `in_len` carries it (R101: `0b100000`). -/
def Config.fullLen : Len := 32#6

/-- R7 `BIAS`. -/
def Config.bias : Nat := 127

/-- R7 `EXP_SPECIAL`: the stored exponent of all ones. -/
def Config.expSpecial : Nat := 255

/-- R7 `EXP_SUBNORMAL`: the stored exponent that selects the subnormal case. -/
def Config.expSubnormal : Nat := 0

/-- R7 `FRAC_BITS`. -/
def Config.fracBits : Nat := 23

/-- R7 `EMIN`: the fixed exponent of the subnormal case, `1 - 127`. -/
def Config.emin : Int := -126

/-- The bias of the binary64 layout of the result (R139, general knowledge in the spec, G1). -/
def Config.bias64 : Nat := 1023

/-- R8 `LATENCY`, default 0: the number of pipeline registers at State.reset.
The model takes it from the length of `State.pipe`, so a statement over all states covers every latency (assumption 3). -/
def Config.defaultLatency : Nat := 0

/-- R38, U10: what the 136 output bits hold while `out_valid` = 0 is unspecified; the n-th such draw.
It has no body, so nothing can be proved of its value (assumption 4). -/
opaque Config.freeOutputs : Nat → BitVec 136

end Sys2Proof
end

