-- ==== Sys2Proof/Machine/Record.lean ====
section
/-! DEFINITION. The output record of one transaction (spec/10_state.md R29 to R33) and its 136-bit form (R51). -/

namespace Sys2Proof.Machine

/-- The output ports other than the strobe; `err` and `cls` keep their 2-bit codes (R30, R33). -/
structure Record where
  err : BitVec 2
  signF : SignField
  expF : ExpField
  fracF : FracField
  cls : BitVec 2
  fracZero : Bool
  isZero : Bool
  isInf : Bool
  isNan : Bool
  expUnb : BitVec 8
  sig : BitVec 24
  value64 : Value64
deriving DecidableEq, Repr

/-- R33 `ERR_NONE`. -/
def errNone : BitVec 2 := 0#2

/-- R33 `ERR_INVALID_LENGTH`. -/
def errInvalidLength : BitVec 2 := 1#2

/-- R33 `ERR_SPECIAL_EXPONENT`. -/
def errSpecialExponent : BitVec 2 := 2#2

/-- R30 `CLS_SUBNORMAL`. -/
def clsSubnormal : BitVec 2 := 0#2

/-- R30 `CLS_NORMAL`. -/
def clsNormal : BitVec 2 := 1#2

/-- R30 `CLS_SPECIAL`. -/
def clsSpecial : BitVec 2 := 2#2

/-- R30 `CLS_NONE`. -/
def clsNone : BitVec 2 := 3#2

/-- The record as 136 bits, the ports in the order in which R51 adds up their widths. -/
def Record.toBits (r : Record) : BitVec 136 :=
  r.err ++ r.signF ++ r.expF ++ r.fracF ++ r.cls ++ BitVec.ofBool r.fracZero ++ BitVec.ofBool r.isZero
    ++ BitVec.ofBool r.isInf ++ BitVec.ofBool r.isNan ++ r.expUnb ++ r.sig ++ r.value64

/-- The record that 136 output bits stand for. -/
def Record.ofBits (b : BitVec 136) : Record :=
  { err := b.extractLsb' 134 2
    signF := b.extractLsb' 133 1
    expF := b.extractLsb' 125 8
    fracF := b.extractLsb' 102 23
    cls := b.extractLsb' 100 2
    fracZero := b.getLsbD 99
    isZero := b.getLsbD 98
    isInf := b.getLsbD 97
    isNan := b.getLsbD 96
    expUnb := b.extractLsb' 88 8
    sig := b.extractLsb' 64 24
    value64 := b.extractLsb' 0 64 }

/-- R38, U10: the outputs while `out_valid` = 0, the n-th draw. -/
def Record.free (n : Nat) : Record := Record.ofBits (Config.freeOutputs n)

end Sys2Proof.Machine
end

