-- ==== Sys2Proof/Syntax.lean ====
section
/-! DEFINITION. The nine operations of spec/opcode_table.json, one constructor a row, and the component a word is handed to. -/

namespace Sys2Proof

/-- The operations. The operands are the fields the row's encoding gives; what a row's word does not carry
(`in_len` for SPLIT, the bit strings for the parsers, the parsed values for ROUTE) is read from the state. -/
inductive Instr where
  /-- `DEC.SUBN` (R133): a full-length transaction with stored exponent 0. -/
  | decSubn (sign : SignField) (frac : FracField)
  /-- `DEC.SPEC` (R135): a full-length transaction with stored exponent 255. -/
  | decSpec (sign : SignField) (frac : FracField)
  /-- `DEC.NORM` (R134): a full-length transaction with stored exponent 1 to 254. -/
  | decNorm (sign : SignField) (exponent : ExpField) (frac : FracField)
  /-- `DEC.INVLEN` (R136): a transaction with `in_len` ≠ 32. -/
  | decInvlen (len : Len) (bits : W32)
  /-- `SPLIT` (R100), the Field Splitter. -/
  | split (sign : SignField) (exponent : ExpField) (frac : FracField)
  /-- `PARSE.INT` (R111): the two Integer-mode parser instances (R110). -/
  | parseInt
  /-- `PARSE.FRAC` (R113): the Fractional-mode parser instance (R110). -/
  | parseFrac
  /-- `ROUTE` (R132), the special-value router; it reads only `e`. -/
  | route (exponent : ExpField)
  /-- `DECODE` (R137), the whole transaction. -/
  | decode (len : Len) (sign : SignField) (exponent : ExpField) (frac : FracField)
deriving DecidableEq, Repr

/-- Where a presented word goes. The spec selects the stages "not by any bit" (R100): this selector is the model's
own device that lets every row of the table be run as one step (assumption 1). -/
inductive Component where
  /-- The decoder's own ports: the class map selects one of the four `DEC.*` operations (R75). -/
  | decoder
  /-- The composite `DECODE`, stage by stage (R137). -/
  | pipeline
  /-- The Field Splitter alone (R100). -/
  | splitter
  /-- The Bit Parser alone, in the mode of its `PMODE` bit (R82). -/
  | parser
  /-- The router alone (R132). -/
  | router
deriving DecidableEq, Repr

end Sys2Proof
end

