-- ==== Sys2Proof/Machine/State.lean ====
section
/-! DEFINITION. The state: the ports, the values inside one transaction, the transactions in flight. Plain data. -/

namespace Sys2Proof.Machine

/-- `SplitFields` (R25): the three fields the Field Splitter produces. -/
structure SplitFields where
  sign : SignField
  exponent : ExpField
  fraction : FracField
deriving DecidableEq, Repr

/-- An exact non-negative dyadic rational `num / 2^places` (R11). -/
structure DyadicRat where
  num : Nat
  places : Nat
deriving DecidableEq, Repr

/-- The local values of a transaction that the stages hand on (R20, R137): `SplitFields`, `sign_val`, `exp_val`, `fraction`. -/
structure Work where
  fields : SplitFields
  signVal : Nat
  expVal : Nat
  fraction : DyadicRat
deriving DecidableEq, Repr

/-- The locals when no transaction is under way; the spec gives them no value then (R20, assumption 6). -/
def Work.empty : Work :=
  { fields := { sign := 0#1, exponent := 0#8, fraction := 0#23 }
    signVal := 0
    expVal := 0
    fraction := { num := 0, places := 0 } }

/-- What the outside drives during one step: the ports of R26 to R28, R37 and R82, and the selector of assumption 1. -/
structure InPorts where
  /-- `rst`, as a logical level: true when asserted, whatever `RESET_ACTIVE` is (R8, R201). -/
  rst : Bool
  /-- `in_valid` (R28). -/
  valid : Bool
  /-- `in_len` (R27). -/
  len : Len
  /-- `in_bits` (R26). -/
  bits : W32
  /-- Which component is operated. -/
  component : Component
  /-- The mode flag, where the parser is operated alone (R82). -/
  mode : PMode
deriving DecidableEq, Repr

structure State where
  /-- The input ports as sampled by the last step. -/
  inp : InPorts
  /-- The samples the upstream will drive in the steps to come, the next one first (R27, R207). -/
  upstream : List InPorts
  /-- The values inside the transaction under way. -/
  work : Work
  /-- The pipeline registers, the next to come out first; their number is `LATENCY` and `none` is a bubble (R28, R37). -/
  pipe : List (Option Record)
  /-- `out_valid` (R28). -/
  outValid : Bool
  /-- The other output ports (R29 to R33). -/
  out : Record
  /-- The records delivered with `out_valid` = 1 so far, in order: the result of a run (R207). -/
  delivered : List Record
  /-- How many draws of unspecified outputs have been made (R38, assumption 4). The model's own. -/
  draws : Nat
deriving DecidableEq, Repr

/-- The ways a step could stop the machine: none, so the type has no constructor.
Every input has a defined behaviour (R76), the two errors of the decoder end a transaction with an output record and
the machine goes on (R180, R183), and no input makes it hang (R207). Safe: nothing is hidden behind a fault. -/
inductive Fault where
deriving DecidableEq, Repr

/-- Why an instruction has no meaning. -/
inductive Refusal where
  /-- The instruction has no meaning in the model yet; raised only by an arm of `exec` for one such. Safe. -/
  | notModelled (mnemonic : String)
deriving DecidableEq, Repr

/-- LATENCY (R8): the number of pipeline registers. -/
def State.latency (s : State) : Nat := s.pipe.length

/-- Nothing presented. -/
def InPorts.quiet : InPorts :=
  { rst := false, valid := false, len := 0#6, bits := 0#32, component := .decoder, mode := 0#1 }

/-- The machine after reset, nothing presented (R36, R37, R200): `out_valid` = 0 and no transaction in flight;
`LATENCY` at its default 0 (R8); the other outputs unspecified (R38). -/
def State.reset : State :=
  { inp := InPorts.quiet
    upstream := []
    work := Work.empty
    pipe := List.replicate Config.defaultLatency none
    outValid := false
    out := Record.free 0
    delivered := []
    draws := 1 }

end Sys2Proof.Machine
end

