-- ==== Sys2Proof/Machine/Flags.lean ====
section
/-! DEFINITION. The tag outputs (spec/42_reconstructor.md R143). -/

namespace Sys2Proof.Machine

/-- R143 for a full-length transaction: `frac_zero` from the fraction, the other three from it and the class. -/
def Record.withTags (r : Record) (fracNum : Nat) : Record :=
  { r with
    fracZero := decide (fracNum = 0)
    isZero := decide (r.cls = clsSubnormal) && decide (fracNum = 0)
    isInf := decide (r.cls = clsSpecial) && decide (fracNum = 0)
    isNan := decide (r.cls = clsSpecial) && !decide (fracNum = 0) }

end Sys2Proof.Machine
end

