-- ==== Sys2Proof/Machine/Operands.lean ====
section
/-! DEFINITION. Operand assembly: bit strings, the two parser folds, the exponent and significand operands, PACK64. -/

namespace Sys2Proof.Machine

/-- R10: the characters of a field, first character first; character k is bit `W-1-k`. -/
def bitString {n : Nat} (v : BitVec n) : List Bool := (List.range n).map fun k => v.getMsbD k

/-- R111: the digit a character stands for. -/
def digit (c : Bool) : Nat := if c then 1 else 0

/-- R111: one turn of `PARSE.INT`'s loop, `acc * 2 + digit`. -/
def parseIntTurn (acc : Nat) (c : Bool) : Nat := acc * 2 + digit c

/-- R111 `PARSE.INT`: the left-to-right fold, for a bit string of any width. -/
def parseIntFold (v : List Bool) : Nat := v.foldl parseIntTurn 0

/-- `d * x` for a digit `d`. -/
def DyadicRat.scale (d : Nat) (x : DyadicRat) : DyadicRat := { num := d * x.num, places := x.places }

/-- Exact sum, over the larger of the two denominators. -/
def DyadicRat.add (x y : DyadicRat) : DyadicRat :=
  { num := x.num * 2 ^ (max x.places y.places - x.places) + y.num * 2 ^ (max x.places y.places - y.places)
    places := max x.places y.places }

/-- R113: "halving after each bit". -/
def DyadicRat.half (x : DyadicRat) : DyadicRat := { num := x.num, places := x.places + 1 }

/-- R113: one turn of `PARSE.FRAC`'s loop on (`acc`, `w`). -/
def parseFracTurn (p : DyadicRat × DyadicRat) (c : Bool) : DyadicRat × DyadicRat :=
  (p.1.add (p.2.scale (digit c)), p.2.half)

/-- R113 `PARSE.FRAC`: the left-to-right fold with a weight from 1/2, for a bit string of any width. -/
def parseFracFold (v : List Bool) : DyadicRat :=
  (v.foldl parseFracTurn ({ num := 0, places := 0 }, { num := 1, places := 1 })).1

/-- R17: `frac_num`, the numerator over 2^23 of the parsed fraction. -/
def fracNumerator (q : DyadicRat) : Nat := q.num * 2 ^ Config.fracBits / 2 ^ q.places

/-- R131, R138: the sign of the result, negative exactly when `sign_val` = 1. -/
def signOf (signVal : Nat) : SignField := if signVal = 1 then 1#1 else 0#1

/-- R73, R134: `exp_val - 127` in 8-bit two's complement. -/
def unbiased (expVal : Nat) : BitVec 8 := BitVec.ofInt 8 ((expVal : Int) - (Config.bias : Int))

/-- R73, R133: the fixed exponent -126 of the subnormal case. -/
def unbiasedSubnormal : BitVec 8 := BitVec.ofInt 8 Config.emin

/-- R74: `2^23 + frac_num`, the implicit leading 1. -/
def sigNormal (fracNum : Nat) : BitVec 24 := BitVec.ofNat 24 (2 ^ Config.fracBits + fracNum)

/-- R74: `frac_num`, no implicit leading 1. -/
def sigSubnormal (fracNum : Nat) : BitVec 24 := BitVec.ofNat 24 fracNum

/-- R139: the binary64 layout, sign, 11-bit biased exponent, 52-bit fraction. -/
def binary64Of (sign : SignField) (e f : Nat) : Value64 := sign ++ BitVec.ofNat 11 e ++ BitVec.ofNat 52 f

/-- R139 `PACK64`, normal case. -/
def pack64Normal (signVal expVal fracNum : Nat) : Value64 :=
  binary64Of (signOf signVal) (expVal + Config.bias64 - Config.bias) (fracNum * 2 ^ 29)

/-- R140 `PACK64`, non-zero subnormal: normalised on the position of the most significant 1. -/
def pack64Subnormal (signVal fracNum : Nat) : Value64 :=
  binary64Of (signOf signVal) (fracNum.log2 + Config.bias64 - 149)
    ((fracNum - 2 ^ fracNum.log2) * 2 ^ (52 - fracNum.log2))

/-- R141 `PACK64`, zero: the sign is kept. -/
def pack64Zero (signVal : Nat) : Value64 := binary64Of (signOf signVal) 0 0

/-- R140, R141: `PACK64` in class SUBNORMAL, zero included. -/
def pack64Denormal (signVal fracNum : Nat) : Value64 :=
  if fracNum = 0 then pack64Zero signVal else pack64Subnormal signVal fracNum

/-- R141: the sentinel +0.0 of both errors. -/
def sentinel : Value64 := 0#64

end Sys2Proof.Machine
end

