-- ==== Sys2Proof/Machine/Ops.lean ====
section
/-! DEFINITION. The shared operations: driving the output record, one clock edge, ending a transaction, raising an error. -/

namespace Sys2Proof.Machine

/-- The next record to come out of the pipeline registers and the registers after the edge, when `r` goes in (R28). -/
def shift (pipe : List (Option Record)) (r : Option Record) : Option Record × List (Option Record) :=
  match pipe with
  | [] => (r, [])
  | o :: rest => (o, rest ++ [r])

/-- Drive the output ports with what comes out (R28, R38): a record with `out_valid` = 1, or a bubble, whose outputs are free. -/
def State.drive (s : State) (o : Option Record) : State :=
  match o with
  | some r => { s with outValid := true, out := r, delivered := s.delivered ++ [r] }
  | none => { s with outValid := false, out := Record.free s.draws, draws := s.draws + 1 }

/-- One edge at which `r` goes into the pipeline (R28); with `LATENCY` = 0 it comes out at once. -/
def State.edge (s : State) (r : Option Record) : State :=
  { s with pipe := (shift s.pipe r).2 }.drive (shift s.pipe r).1

/-- The end of a transaction (R137, R207): its record is handed to the outputs and none of its local values is kept (R13). -/
def State.finish (s : State) (r : Record) : State := { s with work := Work.empty }.edge (some r)

/-- R181: the outputs of `InvalidLength`. -/
def Record.invalidLength : Record :=
  { err := errInvalidLength, signF := 0#1, expF := 0#8, fracF := 0#23, cls := clsNone
    fracZero := false, isZero := false, isInf := false, isNan := false
    expUnb := 0#8, sig := 0#24, value64 := sentinel }

/-- R29, R132, R143: what is driven before the numeric outputs: the fields, the class, the tags. -/
def Record.described (fs : SplitFields) (cls : BitVec 2) : Record :=
  { Record.invalidLength with err := errNone, signF := fs.sign, expF := fs.exponent, fracF := fs.fraction, cls := cls }.withTags
    fs.fraction.toNat

/-- R133: the numeric outputs of the subnormal case. -/
def Record.driveSubnormal (r : Record) (signVal fracNum : Nat) : Record :=
  { r with err := errNone, expUnb := unbiasedSubnormal, sig := sigSubnormal fracNum, value64 := pack64Denormal signVal fracNum }

/-- R134: the numeric outputs of the normal case. -/
def Record.driveNormal (r : Record) (signVal expVal fracNum : Nat) : Record :=
  { r with err := errNone, expUnb := unbiased expVal, sig := sigNormal fracNum, value64 := pack64Normal signVal expVal fracNum }

/-- R135, R182: the numeric outputs of the special case are the sentinel's; the descriptive ones are kept. -/
def Record.driveSpecial (r : Record) : Record :=
  { r with err := errSpecialExponent, expUnb := 0#8, sig := 0#24, value64 := sentinel }

/-- The two errors (R170; `AllocationFailure` is omitted, R176), with what `raise` hands over (R12). -/
inductive Raised where
  /-- `InvalidLength(in_len)`: the offending length is recorded on no port (R171). -/
  | invalidLength (len : Len)
  /-- `SpecialExponent`: what has been driven before the error stays, but for the numeric outputs (R172). -/
  | specialExponent (driven : Record)
deriving DecidableEq, Repr

/-- The outputs an error leaves (R181, R182). -/
def Raised.record : Raised → Record
  | .invalidLength _ => Record.invalidLength
  | .specialExponent driven => driven.driveSpecial

/-- Taking an error, the decoder's only exception (R12, R180): it ends the transaction with the outputs the error forces.
Nothing is saved and control goes nowhere, so there is nothing to return from: the next transaction runs as any other (R183). -/
def State.raise (s : State) (x : Raised) : State := s.finish x.record

/-- What a stage leaves: the transaction goes on to the next stage, or has ended (`raise`, R12). -/
inductive Flow where
  | goesOn (s : State)
  | ended (s : State)
deriving DecidableEq, Repr

/-- The next stage, if the transaction goes on: "no later statement of the transaction executes" after a raise (R12). -/
def Flow.andThen (x : Flow) (k : State → Flow) : Flow :=
  match x with
  | .goesOn s => k s
  | .ended s => .ended s

/-- The state a flow has reached. -/
def Flow.state : Flow → State
  | .goesOn s => s
  | .ended s => s

/-- R100, R101: check the length, then cut the word into its fields. -/
def splitStage (len : Len) (fs : SplitFields) (s : State) : Flow :=
  if len = Config.fullLen then .goesOn { s with work := { s.work with fields := fs } }
  else .ended (s.raise (.invalidLength len))

/-- R110, R111: the sign and the exponent instances of the Bit Parser. -/
def parseIntStage (s : State) : Flow :=
  .goesOn { s with work := { s.work with
    signVal := parseIntFold (bitString s.work.fields.sign)
    expVal := parseIntFold (bitString s.work.fields.exponent) } }

/-- R110, R113: the fraction instance of the Bit Parser. -/
def parseFracStage (s : State) : Flow :=
  .goesOn { s with work := { s.work with fraction := parseFracFold (bitString s.work.fields.fraction) } }

/-- R132: select the case on `exp_val` and perform it; each of the three ends the transaction. -/
def routeStage (expVal : Nat) (s : State) : Flow :=
  if expVal = Config.expSpecial then
    .ended (s.raise (.specialExponent (Record.described s.work.fields clsSpecial)))
  else if expVal = Config.expSubnormal then
    .ended (s.finish ((Record.described s.work.fields clsSubnormal).driveSubnormal s.work.signVal (fracNumerator s.work.fraction)))
  else
    .ended (s.finish ((Record.described s.work.fields clsNormal).driveNormal s.work.signVal expVal (fracNumerator s.work.fraction)))

/-- R137: the stages in their order. -/
def decodeStages (len : Len) (fs : SplitFields) (s : State) : Flow :=
  (((splitStage len fs s).andThen parseIntStage).andThen parseFracStage).andThen fun t => routeStage t.work.expVal t

end Sys2Proof.Machine
end

