-- ==== Sys2Proof/Machine/Parser.lean ====
section
/-! DEFINITION. Operation family 2: the Bit Parser (spec/41_bit_parser.md). -/

namespace Sys2Proof.Machine

/-- `PARSE.INT` (R111): the Integer-mode instances parse the split sign and exponent.
The sampled `in_len` is not read. DESIGN CHOICE, unsafe (assumption 11). -/
def execParseInt (s : State) : Host.Outcome State Fault Refusal := .next (parseIntStage s).state

/-- `PARSE.FRAC` (R113): the Fractional-mode instance parses the split fraction.
The sampled `in_len` is not read. DESIGN CHOICE, unsafe (assumption 11). -/
def execParseFrac (s : State) : Host.Outcome State Fault Refusal := .next (parseFracStage s).state

end Sys2Proof.Machine
end

