-- ==== Sys2Proof/Machine/Reconstructor.lean ====
section
/-! DEFINITION. Operation family 3: the IEEE Reconstructor and the whole transaction (spec/42_reconstructor.md). -/

namespace Sys2Proof.Machine

/-- `DEC.SUBN` (R133, R140, R141): the transaction whose stored exponent is 0. -/
def execDecSubn (sign : SignField) (frac : FracField) (s : State) : Host.Outcome State Fault Refusal :=
  .next (s.finish ((Record.described { sign := sign, exponent := 0x00#8, fraction := frac } clsSubnormal).driveSubnormal
    sign.toNat frac.toNat))

/-- `DEC.SPEC` (R135): the transaction whose stored exponent is 255 raises `SpecialExponent`. -/
def execDecSpec (sign : SignField) (frac : FracField) (s : State) : Host.Outcome State Fault Refusal :=
  .next (s.raise (.specialExponent (Record.described { sign := sign, exponent := 0xFF#8, fraction := frac } clsSpecial)))

/-- `DEC.NORM` (R134, R139): the transaction whose stored exponent is 1 to 254. -/
def execDecNorm (sign : SignField) (exponent : ExpField) (frac : FracField) (s : State) : Host.Outcome State Fault Refusal :=
  .next (s.finish ((Record.described { sign := sign, exponent := exponent, fraction := frac } clsNormal).driveNormal
    sign.toNat exponent.toNat frac.toNat))

/-- `DEC.INVLEN` (R136): the transaction whose length is not 32 raises `InvalidLength`; `in_bits` is ignored. -/
def execDecInvlen (len : Len) (_bits : W32) (s : State) : Host.Outcome State Fault Refusal :=
  .next (s.raise (.invalidLength len))

/-- `ROUTE` (R132) on the stored exponent of the word presented and the values the earlier stages left (assumptions 1, 6).
The sampled `in_len` is not read. DESIGN CHOICE, unsafe (assumption 11). -/
def execRoute (exponent : ExpField) (s : State) : Host.Outcome State Fault Refusal :=
  .next (routeStage exponent.toNat s).state

/-- `DECODE` (R137): Splitter, the three parser calls, Reconstructor. -/
def execDecode (len : Len) (sign : SignField) (exponent : ExpField) (frac : FracField) (s : State) :
    Host.Outcome State Fault Refusal :=
  .next (decodeStages len { sign := sign, exponent := exponent, fraction := frac } s).state

end Sys2Proof.Machine
end

