-- ==== Sys2Proof/Machine/Splitter.lean ====
section
/-! DEFINITION. Operation family 1: the Field Splitter (spec/40_field_splitter.md). -/

namespace Sys2Proof.Machine

/-- `SPLIT` (R100, R101) of the word presented, with the sampled `in_len`. -/
def execSplit (sign : SignField) (exponent : ExpField) (frac : FracField) (s : State) : Host.Outcome State Fault Refusal :=
  .next (splitStage s.inp.len { sign := sign, exponent := exponent, fraction := frac } s).state

end Sys2Proof.Machine
end

