-- ==== Sys2Proof/Machine/Dispatch.lean ====
section
/-! DEFINITION. One arm per operation of the table. -/

namespace Sys2Proof.Machine

def exec (i : Instr) (s : State) : Host.Outcome State Fault Refusal :=
  match i with
  | .decSubn sg f => Sys2Proof.Machine.execDecSubn sg f s
  | .decSpec sg f => Sys2Proof.Machine.execDecSpec sg f s
  | .decNorm sg e f => Sys2Proof.Machine.execDecNorm sg e f s
  | .decInvlen len bits => Sys2Proof.Machine.execDecInvlen len bits s
  | .split sg e f => Sys2Proof.Machine.execSplit sg e f s
  | .parseInt => Sys2Proof.Machine.execParseInt s
  | .parseFrac => Sys2Proof.Machine.execParseFrac s
  | .route e => Sys2Proof.Machine.execRoute e s
  | .decode len sg e f => Sys2Proof.Machine.execDecode len sg e f s

end Sys2Proof.Machine
end

