-- ==== Sys2Proof/WellFormed.lean ====
section
/-! DEFINITION. Which instruction terms are the reading of some word (R75). -/

namespace Sys2Proof

/-- `DEC.NORM` carries a stored exponent 1 to 254 and `DEC.INVLEN` a length other than 32 (R75 rows 1 and 4).
Every other term is well formed: every bit pattern of a field is legal (R26, R77). -/
def Instr.wellFormed : Instr → Bool
  | .decSubn _ _ => true
  | .decSpec _ _ => true
  | .decNorm _ e _ => e.toNat != Config.expSubnormal && e.toNat != Config.expSpecial
  | .decInvlen len _ => len != Config.fullLen
  | .split _ _ _ => true
  | .parseInt => true
  | .parseFrac => true
  | .route _ => true
  | .decode _ _ _ _ => true

end Sys2Proof
end

