-- ==== Sys2Proof/Decode.lean ====
section
/-! DEFINITION. Decoding and encoding: the formats `T38`, `W32` and `PMODE` and the class map (spec/30_encoding.md R70 to R82). -/

namespace Sys2Proof

/-- A word of one of the table's formats, with the component it is handed to. -/
inductive OpWord where
  /-- `T38` at the decoder's ports. -/
  | transaction (w : T38)
  /-- `T38` run as the composite `DECODE`. -/
  | composite (w : T38)
  /-- `W32` at the Field Splitter. -/
  | splitter (w : W32)
  /-- `W32` at the router. -/
  | router (w : W32)
  /-- `PMODE` at the Bit Parser. -/
  | parser (w : PMode)
deriving DecidableEq, Repr

/-- R71: `T[37:32]` is `in_len`. -/
def t38Len (w : T38) : Len := w.extractLsb' 32 6

/-- R71: `T[31:0]` is `in_bits`. -/
def t38Bits (w : T38) : W32 := w.extractLsb' 0 32

/-- R71: `T = {in_len, in_bits}`. -/
def t38Of (len : Len) (bits : W32) : T38 := len ++ bits

/-- R70: bit 31. -/
def w32Sign (w : W32) : SignField := w.extractLsb' 31 1

/-- R70: bits 30:23. -/
def w32Exp (w : W32) : ExpField := w.extractLsb' 23 8

/-- R70: bits 22:0. -/
def w32Frac (w : W32) : FracField := w.extractLsb' 0 23

/-- R70: `s eeeeeeee fffffffffffffffffffffff`. -/
def w32Of (sign : SignField) (exponent : ExpField) (frac : FracField) : W32 := sign ++ exponent ++ frac

/-- The operation a row of the class map names. -/
inductive ClassOp where
  | subn
  | spec
  | norm
  | invlen
deriving DecidableEq, Repr

/-- One row of the class map as match and mask (R75): it matches when `(T & mask) = value`. -/
structure ClassRow where
  mask : T38
  value : T38
  op : ClassOp
deriving DecidableEq, Repr

/-- The class map of R75, in the table's priority order: the first row that matches decides. -/
def classRows : List ClassRow :=
  [ { mask := 0x3F7F800000#38, value := 0x2000000000#38, op := .subn },
    { mask := 0x3F7F800000#38, value := 0x207F800000#38, op := .spec },
    { mask := 0x3F00000000#38, value := 0x2000000000#38, op := .norm },
    { mask := 0x0000000000#38, value := 0x0000000000#38, op := .invlen } ]

/-- The first row of a class map that a transaction word matches. -/
def firstMatch (w : T38) : List ClassRow → ClassOp
  | [] => .invlen
  | row :: rows => if w &&& row.mask = row.value then row.op else firstMatch w rows

/-- R75: the operation a transaction selects. -/
def classOf (w : T38) : ClassOp := firstMatch w classRows

/-- The operands of the selected operation, taken from the word's fields. -/
def decodeTransaction (w : T38) : Instr :=
  match classOf w with
  | .subn => .decSubn (w32Sign (t38Bits w)) (w32Frac (t38Bits w))
  | .spec => .decSpec (w32Sign (t38Bits w)) (w32Frac (t38Bits w))
  | .norm => .decNorm (w32Sign (t38Bits w)) (w32Exp (t38Bits w)) (w32Frac (t38Bits w))
  | .invlen => .decInvlen (t38Len w) (t38Bits w)

/-- Decoding is total: there is no bit pattern without a defined behaviour (R76). -/
def decode : OpWord → Instr
  | .transaction w => decodeTransaction w
  | .composite w => .decode (t38Len w) (w32Sign (t38Bits w)) (w32Exp (t38Bits w)) (w32Frac (t38Bits w))
  | .splitter w => .split (w32Sign w) (w32Exp w) (w32Frac w)
  | .router w => .route (w32Exp w)
  | .parser w => if w = 0#1 then .parseInt else .parseFrac

/-- The word of an instruction, from the same encodings. ROUTE's `s` and `f` "do not take part" (R132): they are written 0. -/
def encode : Instr → OpWord
  | .decSubn s f => .transaction (t38Of Config.fullLen (w32Of s 0x00#8 f))
  | .decSpec s f => .transaction (t38Of Config.fullLen (w32Of s 0xFF#8 f))
  | .decNorm s e f => .transaction (t38Of Config.fullLen (w32Of s e f))
  | .decInvlen len bits => .transaction (t38Of len bits)
  | .split s e f => .splitter (w32Of s e f)
  | .parseInt => .parser 0#1
  | .parseFrac => .parser 1#1
  | .route e => .router (w32Of 0#1 e 0#23)
  | .decode len s e f => .composite (t38Of len (w32Of s e f))

/-- Why a numbered word is no word of a format. -/
inductive Reject where
  /-- A bit is set above the one bit of `PMODE`. -/
  | bitsAbovePmode
  /-- A bit is set above the 32 bits of `W32`. -/
  | bitsAboveW32
  /-- A bit is set above the 38 bits of `T38`. -/
  | bitsAboveT38
  /-- No format of the table has this many bits. -/
  | noSuchFormat
deriving DecidableEq, Repr

/-- The word of a format from its bits as a number, bit 0 of weight 1. A `W32` word alone goes to the Field Splitter,
the first stage of every transaction, and a `T38` word to the decoder's ports, where the class map reads it (assumption 2). -/
def OpWord.ofNumber (nbits w : Nat) : Except Reject OpWord :=
  if nbits = 0 then .error .noSuchFormat
  else if nbits ≤ 8 then
    if w < 2 ^ 1 then .ok (.parser (BitVec.ofNat 1 w)) else .error .bitsAbovePmode
  else if nbits ≤ 32 then
    if w < 2 ^ 32 then .ok (.splitter (BitVec.ofNat 32 w)) else .error .bitsAboveW32
  else if nbits ≤ 40 then
    if w < 2 ^ 38 then .ok (.transaction (BitVec.ofNat 38 w)) else .error .bitsAboveT38
  else .error .noSuchFormat

/-- The instruction the decoder reads from a word numbered as spec/opcode_table.json numbers it. -/
def decodeTableWord (nbits w : Nat) : Option Instr :=
  match OpWord.ofNumber nbits w with
  | .ok ow => some (decode ow)
  | .error _ => none

end Sys2Proof
end

