-- ==== Sys2Proof/Machine/Fetch.lean ====
section
/-! DEFINITION. What a step samples on the input ports, and the edges without a transaction. -/

namespace Sys2Proof.Machine

/-- R71, R82: the word on the ports, read by the component it is handed to. The router and the parser get no `in_len`
(DESIGN CHOICE, unsafe: assumption 11). -/
def InPorts.word (p : InPorts) : OpWord :=
  match p.component with
  | .decoder => .transaction (t38Of p.len p.bits)
  | .pipeline => .composite (t38Of p.len p.bits)
  | .splitter => .splitter p.bits
  | .parser => .parser p.mode
  | .router => .router p.bits

/-- The sample that presents a word: `in_valid` = 1, and for a `W32` word alone a full length, 32 (R70). -/
def InPorts.ofWord (w : OpWord) : InPorts :=
  match w with
  | .transaction t => { InPorts.quiet with valid := true, len := t38Len t, bits := t38Bits t, component := .decoder }
  | .composite t => { InPorts.quiet with valid := true, len := t38Len t, bits := t38Bits t, component := .pipeline }
  | .splitter b => { InPorts.quiet with valid := true, len := Config.fullLen, bits := b, component := .splitter }
  | .router b => { InPorts.quiet with valid := true, len := Config.fullLen, bits := b, component := .router }
  | .parser m => { InPorts.quiet with valid := true, component := .parser, mode := m }

/-- The sample of a numbered word; what is no word of a format is not presented at all. -/
def InPorts.ofNumber (nbits w : Nat) : InPorts :=
  match OpWord.ofNumber nbits w with
  | .ok ow => InPorts.ofWord ow
  | .error _ => InPorts.quiet

/-- Sample the input ports (R55): the upstream's next sample, or `in_valid` = 0 when it drives nothing. -/
def State.sample (s : State) : State :=
  match s.upstream with
  | [] => { s with inp := InPorts.quiet }
  | p :: rest => { s with inp := p, upstream := rest }

/-- R201: a reset input exists only with `LATENCY` > 0. -/
def State.resetAsserted (s : State) : Bool := s.inp.rst && !s.pipe.isEmpty

/-- R37, R201: the transactions in flight are lost, and `out_valid` = 0. -/
def State.resetEdge (s : State) : State :=
  { s with work := Work.empty, pipe := s.pipe.map fun _ => none }.drive none

/-- R28: an edge with `in_valid` = 0 puts a bubble into the pipeline. That the local values are kept, where stages are run as
steps of their own, is a DESIGN CHOICE, unsafe (assumption 12). -/
def State.idleEdge (s : State) : State := s.edge none

end Sys2Proof.Machine
end

