-- ==== Sys2Proof/Machine/Step.lean ====
section
/-! DEFINITION. One step: sample the ports, then run what they present (R13, R28, R39). -/

namespace Sys2Proof.Machine

/-- One step from the state whose ports have been sampled. -/
def stepSampled (s : State) : Host.Outcome State Fault Refusal :=
  if s.resetAsserted then .next s.resetEdge
  else if s.inp.valid then exec (decode s.inp.word) s
  else .next s.idleEdge

/-- One step. -/
def step (s : State) : Host.Outcome State Fault Refusal := stepSampled s.sample

/-- The state in which the upstream presents a numbered word next (assumption 2, assumption 7). -/
def State.withFetchWord (s : State) (nbits w : Nat) : State :=
  { s with upstream := InPorts.ofNumber nbits w :: s.upstream }

end Sys2Proof.Machine
end

