-- ==== Sys2Proof/Safety.lean ====
section
/-! DEFINITION. The words in which claims are stated: what a transaction delivers, the records the rules give, the exact
values, and the invariant of a run. Written from the rules, not from the meanings. -/

namespace Sys2Proof.Machine

/-- The rational a dyadic number stands for. -/
def DyadicRat.toRat (q : DyadicRat) : ℚ := q.num / 2 ^ q.places

/-- One edge at which `r` goes into the pipeline (R28): with `LATENCY` = 0 it appears on the outputs at once, with
`LATENCY` > 0 the oldest register appears and `r` queues behind the others. -/
structure EdgeTakes (s t : State) (r : Option Record) : Prop where
  inpSame : t.inp = s.inp
  upstreamSame : t.upstream = s.upstream
  combinational : s.pipe = [] → t.pipe = [] ∧ t.outValid = r.isSome ∧ t.delivered = s.delivered ++ r.toList ∧
    (∀ x, r = some x → t.out = x ∧ t.draws = s.draws) ∧ (r = none → t.draws = s.draws + 1)
  pipelined : ∀ o rest, s.pipe = o :: rest → t.pipe = rest ++ [r] ∧ t.outValid = o.isSome ∧
    t.delivered = s.delivered ++ o.toList ∧ (∀ x, o = some x → t.out = x ∧ t.draws = s.draws) ∧
    (o = none → t.draws = s.draws + 1)

/-- A transaction ends with the record `r` (R137, R207): one edge takes it, and no local value is left (R13): they are
the named zeros of assumption 6. -/
structure Delivers (s t : State) (r : Record) : Prop where
  edge : EdgeTakes s t (some r)
  workEmpty : t.work = Work.empty

/-- The outputs of class NORMAL (R134, R139, R143). -/
structure IsNormalRecord (r : Record) (sign : SignField) (exponent : ExpField) (frac : FracField) : Prop where
  err : r.err = 0#2
  cls : r.cls = 1#2
  fields : r.signF = sign ∧ r.expF = exponent ∧ r.fracF = frac
  tags : r.fracZero = decide (frac = 0#23) ∧ r.isZero = false ∧ r.isInf = false ∧ r.isNan = false
  expUnb : r.expUnb.toInt = (exponent.toNat : ℤ) - 127
  sig : r.sig = 1#1 ++ frac
  value64 : r.value64 = sign ++ BitVec.ofNat 11 (exponent.toNat + 896) ++ frac ++ 0#29

/-- The outputs of class SUBNORMAL (R133, R140, R141, R143). -/
structure IsSubnormalRecord (r : Record) (sign : SignField) (frac : FracField) : Prop where
  err : r.err = 0#2
  cls : r.cls = 0#2
  fields : r.signF = sign ∧ r.expF = 0x00#8 ∧ r.fracF = frac
  tags : r.fracZero = decide (frac = 0#23) ∧ r.isZero = decide (frac = 0#23) ∧ r.isInf = false ∧ r.isNan = false
  expUnb : r.expUnb.toInt = -126
  sig : r.sig = 0#1 ++ frac
  zero : frac = 0#23 → r.value64 = sign ++ 0#63
  normalised : ∀ p k, frac.toNat = 2 ^ p + k → k < 2 ^ p →
    r.value64 = sign ++ BitVec.ofNat 11 (p + 874) ++ BitVec.ofNat 52 (k * 2 ^ (52 - p))

/-- The outputs on `SpecialExponent` (R135, R182). -/
structure IsSpecialRecord (r : Record) (sign : SignField) (frac : FracField) : Prop where
  err : r.err = 2#2
  cls : r.cls = 2#2
  fields : r.signF = sign ∧ r.expF = 0xFF#8 ∧ r.fracF = frac
  tags : r.fracZero = decide (frac = 0#23) ∧ r.isZero = false ∧ r.isInf = decide (frac = 0#23) ∧
    r.isNan = decide (frac ≠ 0#23)
  numeric : r.expUnb = 0x00#8 ∧ r.sig = 0x000000#24 ∧ r.value64 = 0x0000000000000000#64

/-- The outputs on `InvalidLength` (R136, R181). -/
structure IsInvalidLengthRecord (r : Record) : Prop where
  err : r.err = 1#2
  cls : r.cls = 3#2
  fields : r.signF = 0#1 ∧ r.expF = 0x00#8 ∧ r.fracF = 0x000000#23
  tags : r.fracZero = false ∧ r.isZero = false ∧ r.isInf = false ∧ r.isNan = false
  numeric : r.expUnb = 0x00#8 ∧ r.sig = 0x000000#24 ∧ r.value64 = 0x0000000000000000#64

/-- The record that the transaction word `w` gives at the decoder's ports, whatever the state (R58). -/
def TransactionRecord (w : T38) (r : Record) : Prop :=
  ∀ s, ∃ t, exec (decode (.transaction w)) s = .next t ∧ Delivers s t r

/-- The value of the transaction as (`neg`, `mag`) (R138). -/
def Record.value (r : Record) : Bool × ℚ :=
  if r.err = 0#2 then (r.signF == 1#1, 2 ^ r.expUnb.toInt * r.sig.toNat / 2 ^ 23) else (false, 0)

/-- The number a pair (`neg`, `mag`) stands for (R138). -/
def signedValue (x : Bool × ℚ) : ℚ := if x.1 then -x.2 else x.2

/-- The binary64 exponent field, bits 62:52 (R139). -/
def expField64 (v : Value64) : BitVec 11 := v.extractLsb' 52 11

/-- The binary64 fraction field, bits 51:0 (R139). -/
def fracField64 (v : Value64) : BitVec 52 := v.extractLsb' 0 52

/-- What a binary64 pattern stands for, as far as R139 gives the layout: zero, and the normal numbers. -/
def binary64Value (v : Value64) : Option ℚ :=
  if expField64 v = 0#11 ∧ fracField64 v = 0#52 then some 0
  else if 1 ≤ (expField64 v).toNat ∧ (expField64 v).toNat ≤ 2046 then
    some ((if v.msb then -1 else 1) * 2 ^ (((expField64 v).toNat : ℤ) - 1023) * (1 + (fracField64 v).toNat / 2 ^ 52))
  else none

/-- What every output record keeps to (R83, R143, R180, R181, R139 to R141): a legal (`cls`, `err`) pair, at most one
of three tags, forced numeric outputs on an error, one record for `CLS_NONE`, and never the exponent field `0x7FF`. -/
def Record.lawful (r : Record) : Bool :=
  ((r.cls, r.err) = (0#2, 0#2) || (r.cls, r.err) = (1#2, 0#2) || (r.cls, r.err) = (2#2, 2#2) || (r.cls, r.err) = (3#2, 1#2))
  && !(r.isZero && r.isInf) && !(r.isZero && r.isNan) && !(r.isInf && r.isNan)
  && (r.err = 0#2 || (r.expUnb = 0#8 && r.sig = 0#24 && r.value64 = 0#64))
  && (r.cls != 3#2 || (r.signF = 0#1 && r.expF = 0#8 && r.fracF = 0#23 && !r.fracZero && !r.isZero && !r.isInf && !r.isNan))
  && expField64 r.value64 != 0x7FF#11

/-- The ranges of the parsed values (R110): `sign_val` 0 or 1, `exp_val` 0 to 255, `fraction` below 1. -/
def Work.inRange (k : Work) : Bool := k.signVal ≤ 1 && k.expVal ≤ 255 && k.fraction.num < 2 ^ k.fraction.places

/-- The invariant of a run: the locals in range, and every record on the outputs, in flight or delivered lawful. -/
def State.inv (s : State) : Bool :=
  s.work.inRange && (!s.outValid || s.out.lawful) && s.pipe.all (fun o => o.toList.all Record.lawful)
    && s.delivered.all Record.lawful

/-- A safe run of `k` steps: it goes on (no fault, no refusal) and every record delivered is lawful. -/
def SafeRun (k : Nat) (s : State) : Prop :=
  ∃ t : State, Sys2Proof.core.run k s = .next t ∧ t.delivered.all Record.lawful = true

end Sys2Proof.Machine
end

