-- ==== Sys2Proof/Certificates/Slice0/Obligations.lean ====
section
/-! DEFINITION. The statements for the provers. A transaction's result is said through `Delivers`, which holds its frame:
the input ports and the upstream's samples unchanged, no local value left, and exactly one edge of the pipeline. -/

open Sys2Proof Sys2Proof.Machine

/-! ### Encoding -/

/-- 30_encoding.md, 40_field_splitter.md, 41_bit_parser.md: words written out bit by bit from the encodings, and the
operations they stand for (the vectors S1, B6, X3, L6, NM14 and the mode flag of R82). -/
def Obligations.WrittenWordsDecode : Prop :=
  decode (.transaction 0b10000001000000000000000000000000000000#38) = .decNorm 0#1 0x80#8 0x000000#23 ∧
  decode (.transaction 0b10000000000000000000000000000000000011#38) = .decSubn 0#1 0x000003#23 ∧
  decode (.transaction 0b10000001111111100000000000000000000001#38) = .decSpec 0#1 0x000001#23 ∧
  decode (.transaction 0b10000101000000000000000000000000000000#38) = .decInvlen 33#6 0x40000000#32 ∧
  decode (.splitter 0b11000010111101101110100101111001#32) = .split 1#1 0x85#8 0x76E979#23 ∧
  decode (.router 0b11000010111101101110100101111001#32) = .route 0x85#8 ∧
  decode (.parser 0b0#1) = .parseInt ∧ decode (.parser 0b1#1) = .parseFrac ∧
  decode (.composite 0b10000011000010111101101110100101111001#38) = .decode 32#6 1#1 0x85#8 0x76E979#23

/-- 30_encoding.md sections 1 to 6: decoding an encoded well-formed instruction gives it back, every operand at every value. -/
def Obligations.DecodeOfEncodeIsIdentity : Prop :=
  ∀ i : Instr, i.wellFormed = true → decode (encode i) = i

/-- 30_encoding.md: every word that is not the router's decodes to a well-formed instruction whose encoding is the word
again, so no bit is dropped; a router word keeps its exponent field, the only one ROUTE reads (R132). -/
def Obligations.EncodeOfDecodeIsIdentity : Prop :=
  (∀ w : T38, encode (decode (.transaction w)) = .transaction w ∧ (decode (.transaction w)).wellFormed = true) ∧
  (∀ w : T38, encode (decode (.composite w)) = .composite w) ∧
  (∀ w : W32, encode (decode (.splitter w)) = .splitter w) ∧
  (∀ m : PMode, encode (decode (.parser m)) = .parser m) ∧
  ∀ w : W32, ∃ v : W32, encode (decode (.router w)) = .router v ∧ v.extractLsb' 23 8 = w.extractLsb' 23 8

/-- R75: the ordered tests (the length, then stored exponent 0, then 255, then 1 to 254) and the match-and-mask rows
select the same operation for every transaction word, with the class and the error of that operation. -/
def Obligations.ClassMapIsTheOrderedTests : Prop :=
  ∀ (len : BitVec 6) (s : BitVec 1) (e : BitVec 8) (f : BitVec 23) (w : T38), w = len ++ (s ++ e ++ f : BitVec 32) →
    (decode (.transaction w) =
      if len ≠ 32#6 then .decInvlen len (s ++ e ++ f)
      else if e.toNat = 0 then .decSubn s f
      else if e.toNat = 255 then .decSpec s f
      else .decNorm s e f) ∧
    (decode (.transaction w) =
      if w &&& 0x3F7F800000#38 = 0x2000000000#38 then .decSubn s f
      else if w &&& 0x3F7F800000#38 = 0x207F800000#38 then .decSpec s f
      else if w &&& 0x3F00000000#38 = 0x2000000000#38 then .decNorm s e f
      else .decInvlen len (s ++ e ++ f)) ∧
    ∃ r, TransactionRecord w r ∧ (r.cls, r.err) =
      if len ≠ 32#6 then (3#2, 1#2) else if e.toNat = 0 then (0#2, 0#2) else if e.toNat = 255 then (2#2, 2#2) else (1#2, 0#2)

/-- 30_encoding.md section 3: how many of the 2^38 transaction words select each operation; the four numbers add up to
2^38, so every word selects exactly one. -/
def Obligations.ClassPopulations : Prop :=
  Nat.card { w : T38 // classOf w = .subn } = 2 ^ 24 ∧ Nat.card { w : T38 // classOf w = .spec } = 2 ^ 24 ∧
  Nat.card { w : T38 // classOf w = .norm } = 254 * 2 ^ 24 ∧ Nat.card { w : T38 // classOf w = .invlen } = 63 * 2 ^ 32

/-- R10, R26, R70: read as text, first character first, a word is its sign character, then the eight of the exponent,
then the twenty-three of the fraction, and character i is bit 31 - i. -/
def Obligations.WordTextIsSignExponentFraction : Prop :=
  ∀ w : W32,
    bitString w = bitString (w32Sign w) ++ bitString (w32Exp w) ++ bitString (w32Frac w) ∧
    ∀ i (h : i < (bitString w).length), (bitString w)[i] = w.getLsbD (31 - i)

/-- R51: the twelve output ports are 136 bits, none of them shared. -/
def Obligations.RecordIsOneHundredThirtySixBits : Prop :=
  (∀ r : Record, Record.ofBits r.toBits = r) ∧ ∀ b : BitVec 136, (Record.ofBits b).toBits = b

/-! ### The Field Splitter -/

/-- R100, R101: with `in_len` = 32 the three fields are bits 31, 30:23 and 22:0 of the word, together the whole word,
and nothing else changes; with any other `in_len` the transaction ends in `InvalidLength` before any field exists.
That `SPLIT` is a step of its own, which with a full length writes local values only and no output port, is the model's
choice (assumption 1). -/
def Obligations.SplitCutsTheWordOrRaises : Prop :=
  ∀ (w : W32) (st : State),
    (st.inp.len = 32#6 → exec (decode (.splitter w)) st =
      .next { st with work := { st.work with fields :=
        { sign := w.extractLsb' 31 1, exponent := w.extractLsb' 23 8, fraction := w.extractLsb' 0 23 } } }) ∧
    (w.extractLsb' 31 1 ++ w.extractLsb' 23 8 ++ w.extractLsb' 0 23 : BitVec 32) = w ∧
    (st.inp.len ≠ 32#6 → ∃ t r, exec (decode (.splitter w)) st = .next t ∧ Delivers st t r ∧ IsInvalidLengthRecord r)

/-! ### The Bit Parser -/

/-- 41_bit_parser.md, closed form of `PARSE.INT`: at any width the fold gives the unsigned value, below 2^W. -/
def Obligations.IntegerFoldIsUnsignedValue : Prop :=
  ∀ (n : Nat) (v : BitVec n), parseIntFold (bitString v) = v.toNat ∧ parseIntFold (bitString v) < 2 ^ n

/-- 41_bit_parser.md, closed form of `PARSE.FRAC`: at any width the fold gives the unsigned value over 2^W, at least 0
and below 1. -/
def Obligations.FractionalFoldIsUnsignedOverPower : Prop :=
  ∀ (n : Nat) (v : BitVec n), (parseFracFold (bitString v)).toRat = v.toNat / 2 ^ n ∧
    0 ≤ (parseFracFold (bitString v)).toRat ∧ (parseFracFold (bitString v)).toRat < 1

/-- R117: the parser properties the source lists as testable, and their general forms. -/
def Obligations.ParserPaddingProperties : Prop :=
  (∀ n, parseIntFold (List.replicate n false) = 0) ∧
  (∀ n, (parseFracFold (true :: List.replicate n false)).toRat = 1 / 2) ∧
  (∀ v n, (parseFracFold (v ++ List.replicate n false)).toRat = (parseFracFold v).toRat) ∧
  ∀ v n, parseIntFold (List.replicate n false ++ v) = parseIntFold v

/-- 41_bit_parser.md: `PARSE.INT` completes in every state, gives `sign_val` and `exp_val` the unsigned values of the
split fields, and changes nothing else. That one step of its own runs both instances (assumption 1), whatever
`in_len` is (assumption 11), is the model's choice. -/
def Obligations.ParseIntReadsSignAndExponent : Prop :=
  ∀ st : State, exec .parseInt st = .next { st with work := { st.work with
    signVal := st.work.fields.sign.toNat, expVal := st.work.fields.exponent.toNat } }

/-- 41_bit_parser.md: `PARSE.FRAC` completes in every state, gives `fraction` the unsigned value of the split fraction
over 2^23, and changes nothing else. That it is a step of its own (assumption 1), whatever `in_len` is
(assumption 11), is the model's choice. -/
def Obligations.ParseFracReadsFraction : Prop :=
  ∀ st : State, ∃ q : DyadicRat, exec .parseFrac st = .next { st with work := { st.work with fraction := q } } ∧
    q.toRat = st.work.fields.fraction.toNat / 2 ^ 23

/-! ### The Reconstructor -/

/-- R132: `ROUTE` on the values the earlier stages left performs `DEC.SPEC` on 255, `DEC.SUBN` on 0 and `DEC.NORM` on 1
to 254, with the outputs of each case. That `ROUTE` alone ends the transaction and delivers the record with the tags
and `out_valid` (assumption 1), and that the word gives only the exponent while the fields, sign and fraction come from the
local values (assumption 6), and that `in_len` is not read (assumption 11), are the model's choices. -/
def Obligations.RoutePerformsTheSelectedCase : Prop :=
  ∀ (e : BitVec 8) (st : State),
    st.work.fields.exponent = e → st.work.signVal = st.work.fields.sign.toNat →
    st.work.fraction.toRat = st.work.fields.fraction.toNat / 2 ^ 23 →
    ∃ t r, exec (.route e) st = .next t ∧ Delivers st t r ∧
      (e.toNat = 255 → IsSpecialRecord r st.work.fields.sign st.work.fields.fraction) ∧
      (e.toNat = 0 → IsSubnormalRecord r st.work.fields.sign st.work.fields.fraction) ∧
      (e.toNat ≠ 0 → e.toNat ≠ 255 → IsNormalRecord r st.work.fields.sign e st.work.fields.fraction)

/-- R132: `ROUTE` completes in every state, whatever the earlier stages left: the class and the error follow the
exponent alone. That `ROUTE` alone ends the transaction (assumption 1), what it reads where no stage ran before
(assumption 6), and that `in_len` is not read (assumption 11), are the model's choices. -/
def Obligations.RouteClassFollowsExponentAlone : Prop :=
  ∀ (e : BitVec 8) (st : State), ∃ t r, exec (.route e) st = .next t ∧ Delivers st t r ∧
    (r.cls, r.err) = if e = 0xFF#8 then (2#2, 2#2) else if e = 0x00#8 then (0#2, 0#2) else (1#2, 0#2)

/-- 42_reconstructor.md, `DEC.SUBN` and `PACK64`: the subnormal case completes in every state with the outputs the rules give. -/
def Obligations.SubnormalTransactionDelivers : Prop :=
  ∀ (s : BitVec 1) (f : BitVec 23) (st : State),
    ∃ t r, exec (.decSubn s f) st = .next t ∧ Delivers st t r ∧ IsSubnormalRecord r s f

/-- 42_reconstructor.md, `DEC.NORM` and `PACK64`: the normal case completes in every state with the outputs the rules give. -/
def Obligations.NormalTransactionDelivers : Prop :=
  ∀ (s : BitVec 1) (e : BitVec 8) (f : BitVec 23) (st : State), e.toNat ≠ 0 → e.toNat ≠ 255 →
    ∃ t r, exec (.decNorm s e f) st = .next t ∧ Delivers st t r ∧ IsNormalRecord r s e f

/-- R182: the special case ends in `SpecialExponent`: the numeric outputs are the sentinel's, +0.0 whatever the sign bit,
and the fields and tags keep their values. -/
def Obligations.SpecialTransactionDeliversSentinel : Prop :=
  ∀ (s : BitVec 1) (f : BitVec 23) (st : State),
    ∃ t r, exec (.decSpec s f) st = .next t ∧ Delivers st t r ∧ IsSpecialRecord r s f

/-- R181: any length other than 32 ends in `InvalidLength`, and every output but `err` and `cls` is zero. -/
def Obligations.InvalidLengthTransactionDeliversZeros : Prop :=
  ∀ (len : BitVec 6) (bits : BitVec 32) (st : State), len ≠ 32#6 →
    ∃ t r, exec (.decInvlen len bits) st = .next t ∧ Delivers st t r ∧ IsInvalidLengthRecord r

/-- R137: the stages of `DECODE`, run on any sample in any state, end the transaction with the outputs of the case that
the length and the stored exponent select. -/
def Obligations.DecodeDeliversTheSelectedRecord : Prop :=
  ∀ (len : BitVec 6) (s : BitVec 1) (e : BitVec 8) (f : BitVec 23) (st : State),
    ∃ t r, exec (.decode len s e f) st = .next t ∧ Delivers st t r ∧
      (len ≠ 32#6 → IsInvalidLengthRecord r) ∧
      (len = 32#6 → e = 0x00#8 → IsSubnormalRecord r s f) ∧
      (len = 32#6 → e = 0xFF#8 → IsSpecialRecord r s f) ∧
      (len = 32#6 → e ≠ 0x00#8 → e ≠ 0xFF#8 → IsNormalRecord r s e f)

/-- 42_reconstructor.md section 2 and 30_encoding.md section 3: running a transaction word stage by stage (`DECODE`,
through both parser folds) and running the one operation the class map selects give the same state. -/
def Obligations.DecodeEqualsSelectedOperation : Prop :=
  ∀ (w : T38) (st : State), exec (decode (.composite w)) st = exec (decode (.transaction w)) st

/-- 42_reconstructor.md section 2: the four stage operations run one after another as single instructions on the same
word, with `in_len` = 32 on the port, give what `DECODE` gives; with another `in_len`, `SPLIT` alone does.
That a stage is a step of its own is the model's device (assumption 1). -/
def Obligations.StagesComposeToDecode : Prop :=
  ∀ (w : W32) (st : State),
    (st.inp.len = 32#6 → ∃ t₁ t₂ t₃, exec (decode (.splitter w)) st = .next t₁ ∧ exec .parseInt t₁ = .next t₂ ∧
      exec .parseFrac t₂ = .next t₃ ∧
      exec (decode (.router w)) t₃ = exec (decode (.composite (st.inp.len ++ w))) st) ∧
    (st.inp.len ≠ 32#6 → exec (decode (.splitter w)) st = exec (decode (.composite (st.inp.len ++ w))) st)

/-! ### Values -/

/-- 42_reconstructor.md section 3: for every full-length word that is not special, the 64-bit pattern, read by the
binary64 layout, is exactly the value of the formula: no bit is lost and nothing rounds. The sign bit of the pattern
is the word's, zero included, and the pair (`neg`, `mag`) of the component outputs is the same value. -/
def Obligations.ValueIsExactlyTheFormula : Prop :=
  ∀ (s : BitVec 1) (e : BitVec 8) (f : BitVec 23), e ≠ 0xFF#8 →
    ∃ r, TransactionRecord (32#6 ++ (s ++ e ++ f : BitVec 32)) r ∧
      r.value = (s == 1#1, if e = 0x00#8 then 2 ^ (-126 : ℤ) * ((f.toNat : ℚ) / 2 ^ 23)
        else 2 ^ ((e.toNat : ℤ) - 127) * (1 + (f.toNat : ℚ) / 2 ^ 23)) ∧
      binary64Value r.value64 = some (signedValue r.value) ∧
      r.value64.msb = (s == 1#1)

/-- 42_reconstructor.md section 3, range of results: a magnitude is 0 or lies between 2^-149 and 2^128 - 2^104. -/
def Obligations.ValueRange : Prop :=
  ∀ (w : T38) (r : Record), TransactionRecord w r →
    r.value.2 = 0 ∨ ((2 : ℚ) ^ (-149 : ℤ) ≤ r.value.2 ∧ r.value.2 ≤ 2 ^ 128 - 2 ^ 104)

/-- 42_reconstructor.md section 3: two transactions without error that give the same 64-bit pattern, or the same pair
(`neg`, `mag`), are the same word. -/
def Obligations.ResultsAreInjective : Prop :=
  ∀ (w w' : T38) (r r' : Record), TransactionRecord w r → TransactionRecord w' r' → r.err = 0#2 → r'.err = 0#2 →
    (r.value64 = r'.value64 ∨ r.value = r'.value) → w = w'

/-- R144, section 4: flipping the sign bit of a full-length word flips `sign_f` and, without error, bit 63 of the
pattern, and changes no other output; in the special class nothing but `sign_f` changes. -/
def Obligations.SignBitFlipsOnlyTheSign : Prop :=
  ∀ (s : BitVec 1) (e : BitVec 8) (f : BitVec 23) (r r' : Record),
    TransactionRecord (32#6 ++ (s ++ e ++ f : BitVec 32)) r →
    TransactionRecord (32#6 ++ (~~~s ++ e ++ f : BitVec 32)) r' →
    r' = { r with
      signF := ~~~r.signF
      value64 := if r.err = 0#2 then r.value64 ^^^ 0x8000000000000000#64 else r.value64 }

/-- 42_reconstructor.md R135 and 95_test_vectors.md V5, V6: no transaction gives a pattern with the exponent field of an
infinity or a NaN; a normal one has 29 trailing zeros and a subnormal one at least 30. -/
def Obligations.NoInfinityOrNanPattern : Prop :=
  ∀ (w : T38) (r : Record), TransactionRecord w r →
    expField64 r.value64 ≠ 0x7FF#11 ∧
    (r.err = 0#2 → r.value64.extractLsb' 0 63 = 0#63 ∨
      (874 ≤ (expField64 r.value64).toNat ∧ (expField64 r.value64).toNat ≤ 1150)) ∧
    (r.cls = 1#2 → r.value64.extractLsb' 0 29 = 0#29) ∧
    (r.cls = 0#2 → r.value64.extractLsb' 0 30 = 0#30)

/-- R143: the four tags of every transaction, and that at most one of three is set. -/
def Obligations.TagsFollowClassAndFraction : Prop :=
  ∀ (len : BitVec 6) (s : BitVec 1) (e : BitVec 8) (f : BitVec 23) (r : Record),
    TransactionRecord (len ++ (s ++ e ++ f : BitVec 32)) r →
    (r.fracZero = true ↔ len = 32#6 ∧ f.toNat = 0) ∧
    (r.isZero = true ↔ r.cls = 0#2 ∧ r.fracZero = true) ∧
    (r.isInf = true ↔ r.cls = 2#2 ∧ r.fracZero = true) ∧
    (r.isNan = true ↔ r.cls = 2#2 ∧ r.fracZero = false) ∧
    ([r.isZero, r.isInf, r.isNan].count true ≤ 1) ∧
    (r.cls = 3#2 → r.fracZero = false ∧ r.isZero = false ∧ r.isInf = false ∧ r.isNan = false)

/-! ### Errors -/

/-- R178: a wrong length is reported whatever the exponent bits hold, `0xFF` included, and `SpecialExponent` only with
`in_len` = 32; one transaction reports one code. -/
def Obligations.InvalidLengthHasPriority : Prop :=
  ∀ (len : BitVec 6) (s : BitVec 1) (e : BitVec 8) (f : BitVec 23),
    ∃ r, TransactionRecord (len ++ (s ++ e ++ f : BitVec 32)) r ∧
      (r.err = 1#2 ↔ len ≠ 32#6) ∧ (r.err = 2#2 ↔ len = 32#6 ∧ e = 0xFF#8) ∧
      (r.err = 0#2 ↔ len = 32#6 ∧ e ≠ 0xFF#8)

/-- R181, 10_state.md R27: with a wrong length nothing depends on `in_bits`, nor on which wrong length it is. -/
def Obligations.UnsuppliedBitsNeverReachAnOutput : Prop :=
  ∀ (len len' : BitVec 6) (b b' : BitVec 32) (st : State), len ≠ 32#6 → len' ≠ 32#6 →
    exec (decode (.transaction (len ++ b))) st = exec (decode (.transaction (len' ++ b'))) st ∧
    exec (decode (.composite (len ++ b))) st = exec (decode (.composite (len' ++ b'))) st

/-- 20_memory.md section 4, 60_exceptions.md section 4: the record of a transaction is the same from any two states, so no
earlier transaction, error or history reaches it. -/
def Obligations.RecordIgnoresHistory : Prop :=
  ∀ (w : T38) (s s' t t' : State) (r r' : Record),
    exec (decode (.transaction w)) s = .next t → Delivers s t r →
    exec (decode (.composite w)) s' = .next t' → Delivers s' t' r' → r = r'

/-- 00_scope.md R13, 10_state.md R20: what an earlier stage or transaction left in the local values has no effect on a
transaction run whole. -/
def Obligations.LeftoverLocalsHaveNoEffect : Prop :=
  ∀ (w : T38) (k : Work) (s : State),
    exec (decode (.transaction w)) { s with work := k } = exec (decode (.transaction w)) s ∧
    exec (decode (.composite w)) { s with work := k } = exec (decode (.composite w)) s

/-! ### Steps and runs -/

/-- The step samples the next input of the upstream and, when it presents a word, runs the instruction that word
decodes to, with the sample on the ports. A reset with transactions in flight goes before it (R37).
That the samples stand in a list (assumption 7), and that the splitter, the parser or the router is selected and its stage run
as a step of its own (assumption 1), are the model's choices. -/
def Obligations.StepRunsTheDecodedInstruction : Prop :=
  ∀ (s : State) (p : InPorts) (rest : List InPorts), s.upstream = p :: rest → p.valid = true →
    (p.rst = false ∨ s.pipe = []) →
    step s = exec (decode p.word) { s with inp := p, upstream := rest } ∧
    (p.component = .decoder → p.word = .transaction (p.len ++ p.bits)) ∧
    (p.component = .pipeline → p.word = .composite (p.len ++ p.bits)) ∧
    (p.component = .splitter → p.word = .splitter p.bits) ∧
    (p.component = .parser → p.word = .parser p.mode) ∧
    (p.component = .router → p.word = .router p.bits)

/-- A word numbered as the opcode table numbers it, placed with `withFetchWord`, is what the very next step runs.
How a bare number is read (assumption 2), that a stage is a step of its own (assumption 1), and that the sample is put in front
of a list (assumption 7) are the model's choices. -/
def Obligations.FetchWordRunsNext : Prop :=
  ∀ (s : State) (nbits w : Nat) (i : Instr), decodeTableWord nbits w = some i →
    ∃ p : InPorts, decode p.word = i ∧ step (s.withFetchWord nbits w) = exec i { s with inp := p }

/-- 10_state.md section 3: a step with `in_valid` = 0 presents no transaction: a bubble goes through the pipeline and no
local value changes. That an exhausted list of samples reads as `in_valid` = 0 (assumption 7), and that local values outlast an
idle step between stages run as steps of their own (assumptions 1, 6, 12), are the model's choices. -/
def Obligations.IdleStepPutsABubble : Prop :=
  ∀ s : State, (s.upstream = [] ∨ ∃ p rest, s.upstream = p :: rest ∧ p.valid = false ∧ (p.rst = false ∨ s.pipe = [])) →
    ∃ t, step s = .next t ∧ EdgeTakes s.sample t none ∧ t.work = s.work

/-- 10_state.md R37, 70_reset_and_hazards.md R201: a step with reset asserted and `LATENCY` > 0 loses every transaction in
flight, delivers none and drives `out_valid` = 0. That a sample on the same edge is lost too is the model's choice
(assumption 5), and so are the zeros of the local values (assumption 6) and the list of samples (assumption 7). -/
def Obligations.ResetDropsTransactionsInFlight : Prop :=
  ∀ (s : State) (p : InPorts) (rest : List InPorts), s.upstream = p :: rest → p.rst = true → s.pipe ≠ [] →
    ∃ t, step s = .next t ∧ t.pipe = List.replicate s.latency none ∧ t.outValid = false ∧ t.delivered = s.delivered ∧
      t.inp = p ∧ t.upstream = rest ∧ t.work = Work.empty

/-- 10_state.md R37: with nothing in flight and `out_valid` = 0, as a reset leaves it, `out_valid` stays 0 and nothing is
delivered for L steps, whatever is presented: a transaction comes out L edges after it went in, at the earliest. -/
def Obligations.OutputsStaySilentForLatencyAfterReset : Prop :=
  ∀ (k : Nat) (s t : State), (∀ o ∈ s.pipe, o = none) → s.outValid = false → k ≤ s.latency →
    Sys2Proof.core.run k s = .next t → t.outValid = false ∧ t.delivered = s.delivered

/-- 10_state.md R28, 00_scope.md R8: `LATENCY` is fixed: no step changes the number of pipeline registers. -/
def Obligations.StepKeepsLatency : Prop :=
  ∀ s t : State, step s = .next t → t.latency = s.latency

/-- 70_reset_and_hazards.md R207, 30_encoding.md R76: no input makes the decoder stop, hang or wait: from every state, in
range or not, a step answers a next state. -/
def Obligations.StepAlwaysGoesOn : Prop :=
  ∀ s : State, ∃ t, step s = .next t

/-- 70_reset_and_hazards.md section 5, 20_memory.md section 4: n transactions presented back to back, then L idle edges to
empty the pipeline, deliver n records, in order, each the record of its own word: none dropped, duplicated or merged.
That `LATENCY` counts steps is deduced (assumption 3); that the idle edges come from the exhausted list of samples is the
model's choice (assumption 7). -/
def Obligations.RunDeliversRecordsInOrder : Prop :=
  ∀ (ws : List T38) (s : State), (∀ o ∈ s.pipe, o = none) →
    s.upstream = ws.map (fun w => InPorts.ofWord (.transaction w)) →
    ∃ (t : State) (rs : List Record), Sys2Proof.core.run (ws.length + s.latency) s = .next t ∧
      t.delivered = s.delivered ++ rs ∧ List.Forall₂ TransactionRecord ws rs

/-! ### Reset and the invariant -/

/-- 70_reset_and_hazards.md R200, 10_state.md R37: after reset `out_valid` = 0, no transaction is in flight, nothing has been
delivered; `LATENCY` is the default 0 of 00_scope.md R8. That nothing is presented then is the model's choice (assumption 7). -/
def Obligations.ResetIsSilent : Prop :=
  State.reset.outValid = false ∧ (∀ o ∈ State.reset.pipe, o = none) ∧ State.reset.delivered = [] ∧
    State.reset.latency = 0 ∧ State.reset.upstream = []

/-- 30_encoding.md R83, 41_bit_parser.md R110: the invariant holds at reset. -/
def Obligations.ResetMeetsInvariant : Prop := State.reset.inv = true

/-- 30_encoding.md R83, 42_reconstructor.md R143, 60_exceptions.md R180, 41_bit_parser.md R110: every step keeps the invariant:
the parsed values in their ranges, and every record on the outputs, in flight or delivered lawful (a legal pair of `cls` and
`err`, at most one tag, forced numeric outputs on an error, never the exponent field of an infinity). -/
def Obligations.StepKeepsInvariant : Prop :=
  ∀ s t : State, s.inv = true → step s = .next t → t.inv = true

/-- 70_reset_and_hazards.md R207, 30_encoding.md R76 and R83, 60_exceptions.md R180 and R183, 42_reconstructor.md R143: for
whole runs, from every state that meets the invariant, a run of any length goes on and delivers only
lawful records. -/
def Obligations.EveryRunIsSafe : Prop :=
  ∀ (k : Nat) (s : State), s.inv = true → SafeRun k s
end

