-- ==== Sys2Proof/Laws/Decode.lean ====
section
/-! SUPPORT. Fields of an assembled word (R70, R71), and words assembled again from their fields. -/

namespace Sys2Proof

@[simp] theorem t38Len_of (len : Len) (bits : W32) : t38Len (t38Of len bits) = len := by
  apply BitVec.eq_of_getLsbD_eq
  intro i hi
  rw [t38Len, BitVec.getLsbD_extractLsb', t38Of, BitVec.getLsbD_append]
  simp [hi]

@[simp] theorem t38Bits_of (len : Len) (bits : W32) : t38Bits (t38Of len bits) = bits := by
  apply BitVec.eq_of_getLsbD_eq
  intro i hi
  rw [t38Bits, BitVec.getLsbD_extractLsb', t38Of, BitVec.getLsbD_append]
  simp [hi]

@[simp] theorem w32Sign_of (s : SignField) (e : ExpField) (f : FracField) : w32Sign (w32Of s e f) = s := by
  apply BitVec.eq_of_getLsbD_eq
  intro i hi
  obtain rfl : i = 0 := by omega
  rw [w32Sign, BitVec.getLsbD_extractLsb', w32Of, BitVec.getLsbD_append, BitVec.getLsbD_append]
  simp

@[simp] theorem w32Exp_of (s : SignField) (e : ExpField) (f : FracField) : w32Exp (w32Of s e f) = e := by
  apply BitVec.eq_of_getLsbD_eq
  intro i hi
  rw [w32Exp, BitVec.getLsbD_extractLsb', w32Of, BitVec.getLsbD_append, BitVec.getLsbD_append]
  simp [hi]

@[simp] theorem w32Frac_of (s : SignField) (e : ExpField) (f : FracField) : w32Frac (w32Of s e f) = f := by
  apply BitVec.eq_of_getLsbD_eq
  intro i hi
  rw [w32Frac, BitVec.getLsbD_extractLsb', w32Of, BitVec.getLsbD_append, BitVec.getLsbD_append]
  simp [hi]

theorem t38Of_fields (w : T38) : t38Of (t38Len w) (t38Bits w) = w := by
  apply BitVec.eq_of_getLsbD_eq
  intro i hi
  rw [t38Of, BitVec.getLsbD_append]
  by_cases h : i < 32
  · simp [h, t38Bits]
  · simp [h, t38Len, show 32 + (i - 32) = i by omega, show i - 32 < 6 by omega]

theorem w32Of_fields (w : W32) : w32Of (w32Sign w) (w32Exp w) (w32Frac w) = w := by
  apply BitVec.eq_of_getLsbD_eq
  intro i hi
  rw [w32Of, BitVec.getLsbD_append, BitVec.getLsbD_append]
  by_cases h : i < 23
  · simp [h, w32Frac]
  · by_cases h' : i - 23 < 8
    · simp [h, h', w32Exp, show 23 + (i - 23) = i by omega]
    · obtain rfl : i = 31 := by omega
      simp [w32Sign]

end Sys2Proof
end

