-- ==== Sys2Proof/Laws/State.lean ====
section
/-! SUPPORT. What each named update of the state leaves alone and what it writes, field by field. -/

namespace Sys2Proof.Machine

@[simp] theorem shift_nil (r : Option Record) : shift [] r = (r, []) := rfl
@[simp] theorem shift_cons (o : Option Record) (rest : List (Option Record)) (r : Option Record) :
    shift (o :: rest) r = (o, rest ++ [r]) := rfl

theorem shift_length (pipe : List (Option Record)) (r : Option Record) : (shift pipe r).2.length = pipe.length := by
  cases pipe <;> simp

/-- Nothing but `r` and the registers can come out or stay in. -/
theorem shift_mem {pipe : List (Option Record)} {r : Option Record} :
    ((shift pipe r).1 = r ∨ (shift pipe r).1 ∈ pipe) ∧ ∀ o ∈ (shift pipe r).2, o = r ∨ o ∈ pipe := by
  cases pipe with
  | nil => simp
  | cons o rest => simp; tauto

@[simp] theorem drive_some_outValid (s : State) (r : Record) : (s.drive (some r)).outValid = true := rfl
@[simp] theorem drive_some_out (s : State) (r : Record) : (s.drive (some r)).out = r := rfl
@[simp] theorem drive_some_delivered (s : State) (r : Record) : (s.drive (some r)).delivered = s.delivered ++ [r] := rfl
@[simp] theorem drive_some_draws (s : State) (r : Record) : (s.drive (some r)).draws = s.draws := rfl
@[simp] theorem drive_none_outValid (s : State) : (s.drive none).outValid = false := rfl
@[simp] theorem drive_none_out (s : State) : (s.drive none).out = Record.free s.draws := rfl
@[simp] theorem drive_none_delivered (s : State) : (s.drive none).delivered = s.delivered := rfl
@[simp] theorem drive_none_draws (s : State) : (s.drive none).draws = s.draws + 1 := rfl

@[simp] theorem drive_inp (s : State) (o : Option Record) : (s.drive o).inp = s.inp := by cases o <;> rfl
@[simp] theorem drive_upstream (s : State) (o : Option Record) : (s.drive o).upstream = s.upstream := by cases o <;> rfl
@[simp] theorem drive_work (s : State) (o : Option Record) : (s.drive o).work = s.work := by cases o <;> rfl
@[simp] theorem drive_pipe (s : State) (o : Option Record) : (s.drive o).pipe = s.pipe := by cases o <;> rfl
theorem drive_outValid (s : State) (o : Option Record) : (s.drive o).outValid = o.isSome := by cases o <;> rfl
theorem drive_delivered (s : State) (o : Option Record) : (s.drive o).delivered = s.delivered ++ o.toList := by
  cases o <;> simp

@[simp] theorem edge_inp (s : State) (r : Option Record) : (s.edge r).inp = s.inp := by simp [State.edge]
@[simp] theorem edge_upstream (s : State) (r : Option Record) : (s.edge r).upstream = s.upstream := by simp [State.edge]
@[simp] theorem edge_work (s : State) (r : Option Record) : (s.edge r).work = s.work := by simp [State.edge]
@[simp] theorem edge_pipe (s : State) (r : Option Record) : (s.edge r).pipe = (shift s.pipe r).2 := by simp [State.edge]
theorem edge_outValid (s : State) (r : Option Record) : (s.edge r).outValid = (shift s.pipe r).1.isSome := by
  simp [State.edge, drive_outValid]
theorem edge_delivered (s : State) (r : Option Record) :
    (s.edge r).delivered = s.delivered ++ (shift s.pipe r).1.toList := by
  simp [State.edge, drive_delivered]

@[simp] theorem finish_inp (s : State) (r : Record) : (s.finish r).inp = s.inp := by simp [State.finish]
@[simp] theorem finish_upstream (s : State) (r : Record) : (s.finish r).upstream = s.upstream := by simp [State.finish]
@[simp] theorem finish_work (s : State) (r : Record) : (s.finish r).work = Work.empty := by simp [State.finish]
@[simp] theorem finish_pipe (s : State) (r : Record) : (s.finish r).pipe = (shift s.pipe (some r)).2 := by simp [State.finish]

/-- The locals a transaction starts from do not reach its end. -/
@[simp] theorem finish_withWork (s : State) (k : Work) (r : Record) : { s with work := k }.finish r = s.finish r := rfl

@[simp] theorem resetEdge_inp (s : State) : s.resetEdge.inp = s.inp := rfl
@[simp] theorem resetEdge_upstream (s : State) : s.resetEdge.upstream = s.upstream := rfl
@[simp] theorem resetEdge_work (s : State) : s.resetEdge.work = Work.empty := rfl
@[simp] theorem resetEdge_pipe (s : State) : s.resetEdge.pipe = s.pipe.map fun _ => none := rfl
@[simp] theorem resetEdge_outValid (s : State) : s.resetEdge.outValid = false := rfl
@[simp] theorem resetEdge_delivered (s : State) : s.resetEdge.delivered = s.delivered := rfl
@[simp] theorem resetEdge_draws (s : State) : s.resetEdge.draws = s.draws + 1 := rfl

@[simp] theorem sample_work (s : State) : s.sample.work = s.work := by unfold State.sample; split <;> rfl
@[simp] theorem sample_pipe (s : State) : s.sample.pipe = s.pipe := by unfold State.sample; split <;> rfl
@[simp] theorem sample_outValid (s : State) : s.sample.outValid = s.outValid := by unfold State.sample; split <;> rfl
@[simp] theorem sample_out (s : State) : s.sample.out = s.out := by unfold State.sample; split <;> rfl
@[simp] theorem sample_delivered (s : State) : s.sample.delivered = s.delivered := by unfold State.sample; split <;> rfl
@[simp] theorem sample_draws (s : State) : s.sample.draws = s.draws := by unfold State.sample; split <;> rfl

@[simp] theorem andThen_goesOn (s : State) (k : State → Flow) : (Flow.goesOn s).andThen k = k s := rfl
@[simp] theorem andThen_ended (s : State) (k : State → Flow) : (Flow.ended s).andThen k = .ended s := rfl
@[simp] theorem state_goesOn (s : State) : (Flow.goesOn s).state = s := rfl
@[simp] theorem state_ended (s : State) : (Flow.ended s).state = s := rfl

end Sys2Proof.Machine
end

