-- ==== Sys2Proof/Laws/Ops.lean ====
section
/-! SUPPORT. One lemma for each shared operation that says all it does, and the ways a stage or a step can end. -/

namespace Sys2Proof.Machine

/-- An edge takes what is given to it, and changes no local value. -/
theorem edge_takes (s : State) (r : Option Record) : EdgeTakes s (s.edge r) r := by
  refine ⟨by simp, by simp, ?_, ?_⟩
  · intro h; cases r <;> simp [State.edge, h]
  · intro o rest h; cases o <;> simp [State.edge, h]

/-- The end of a transaction delivers its record. -/
theorem finish_delivers (s : State) (r : Record) : Delivers s (s.finish r) r :=
  ⟨⟨by simp, by simp, (edge_takes { s with work := Work.empty } (some r)).combinational,
    (edge_takes { s with work := Work.empty } (some r)).pipelined⟩, by simp⟩

/-- An error ends the transaction with the record it forces. -/
theorem raise_delivers (s : State) (x : Raised) : Delivers s (s.raise x) x.record := finish_delivers s x.record

/-- A run of one step more. -/
theorem run_succ (M : Host.Core) (k : Nat) (s u : M.State) (h : M.step s = .next u) : M.run (k + 1) s = M.run k u := by
  rw [Host.Core.run, h]

/-- The record of a transaction is determined by the states before and after it. -/
theorem delivers_unique {s t : State} {r r' : Record} (h : Delivers s t r) (h' : Delivers s t r') : r = r' := by
  cases hp : s.pipe with
  | nil =>
    have a := ((h.edge.combinational hp).2.2.2.1 r rfl).1
    have b := ((h'.edge.combinational hp).2.2.2.1 r' rfl).1
    exact a.symm.trans b
  | cons o rest =>
    have a := (h.edge.pipelined o rest hp).1
    have b := (h'.edge.pipelined o rest hp).1
    simpa using a.symm.trans b

/-- What `ROUTE` leaves: exactly one of the three cases of R132 has been performed. -/
theorem routeStage_cases (v : Nat) (s : State) :
    (v = 255 ∧ routeStage v s = .ended (s.finish (Record.described s.work.fields clsSpecial).driveSpecial)) ∨
    (v = 0 ∧ routeStage v s = .ended (s.finish ((Record.described s.work.fields clsSubnormal).driveSubnormal
      s.work.signVal (fracNumerator s.work.fraction)))) ∨
    (v ≠ 0 ∧ v ≠ 255 ∧ routeStage v s = .ended (s.finish ((Record.described s.work.fields clsNormal).driveNormal
      s.work.signVal v (fracNumerator s.work.fraction)))) := by
  unfold routeStage
  by_cases h : v = 255
  · exact .inl ⟨h, by simp [Config.expSpecial, h, State.raise, Raised.record]⟩
  · by_cases h0 : v = 0
    · exact .inr (.inl ⟨h0, by simp [Config.expSpecial, Config.expSubnormal, h0]⟩)
    · exact .inr (.inr ⟨h0, h, by simp [Config.expSpecial, Config.expSubnormal, h0, h]⟩)

/-- What `SPLIT` leaves: the fields, or the error of R101. -/
theorem splitStage_cases (len : Len) (fs : SplitFields) (s : State) :
    (len = 32#6 ∧ splitStage len fs s = .goesOn { s with work := { s.work with fields := fs } }) ∨
    (len ≠ 32#6 ∧ splitStage len fs s = .ended (s.finish Record.invalidLength)) := by
  unfold splitStage
  by_cases h : len = 32#6
  · exact .inl ⟨h, by simp [Config.fullLen, h]⟩
  · exact .inr ⟨h, by simp [Config.fullLen, h, State.raise, Raised.record]⟩

/-- Every way `exec` can answer: a stage has written local values only, or a transaction has ended with a record. -/
theorem exec_cases (i : Instr) (s : State) :
    (∃ k, exec i s = .next { s with work := k }) ∨ (∃ r, exec i s = .next (s.finish r)) := by
  have route (v : Nat) (u : State) : ∃ r, (routeStage v u).state = u.finish r := by
    obtain ⟨-, h⟩ | ⟨-, h⟩ | ⟨-, -, h⟩ := routeStage_cases v u <;> exact ⟨_, by rw [h]; rfl⟩
  cases i with
  | decSubn sg f => exact .inr ⟨_, rfl⟩
  | decSpec sg f => exact .inr ⟨_, rfl⟩
  | decNorm sg e f => exact .inr ⟨_, rfl⟩
  | decInvlen len bits => exact .inr ⟨_, rfl⟩
  | split sg e f =>
    obtain ⟨-, h⟩ | ⟨-, h⟩ := splitStage_cases s.inp.len { sign := sg, exponent := e, fraction := f } s
    · exact .inl ⟨_, by simp only [exec, execSplit, h, state_goesOn]; rfl⟩
    · exact .inr ⟨_, by simp only [exec, execSplit, h, state_ended]; rfl⟩
  | parseInt => exact .inl ⟨_, rfl⟩
  | parseFrac => exact .inl ⟨_, rfl⟩
  | route e =>
    obtain ⟨r, h⟩ := route e.toNat s
    exact .inr ⟨r, by simp only [exec, execRoute, h]⟩
  | decode len sg e f =>
    obtain ⟨-, h⟩ | ⟨-, h⟩ := splitStage_cases len { sign := sg, exponent := e, fraction := f } s
    · simp only [exec, execDecode, decodeStages, h, andThen_goesOn, parseIntStage, parseFracStage]
      obtain ⟨r, h'⟩ := route _ _
      exact .inr ⟨r, congrArg _ h'⟩
    · exact .inr ⟨_, by simp only [exec, execDecode, decodeStages, h, andThen_ended, state_ended]; rfl⟩

/-- Every way a step can answer. -/
theorem step_cases (s : State) :
    (s.sample.resetAsserted = true ∧ step s = .next s.sample.resetEdge) ∨
    (s.sample.resetAsserted = false ∧ s.sample.inp.valid = true ∧ step s = exec (decode s.sample.inp.word) s.sample) ∨
    (s.sample.resetAsserted = false ∧ s.sample.inp.valid = false ∧ step s = .next s.sample.idleEdge) := by
  unfold step stepSampled
  cases s.sample.resetAsserted <;> cases s.sample.inp.valid <;> simp

end Sys2Proof.Machine
end

