-- ==== Sys2Proof/Laws/Parser.lean ====
section
/-! SUPPORT. The turns of the two parser folds (R111, R113) over strings that grow at either end. -/

namespace Sys2Proof.Machine

@[simp] theorem parseIntFold_nil : parseIntFold [] = 0 := rfl

theorem parseIntFold_concat (v : List Bool) (c : Bool) :
    parseIntFold (v ++ [c]) = parseIntFold v * 2 + digit c := by
  simp [parseIntFold, parseIntTurn]

@[simp] theorem toRat_add (x y : DyadicRat) : (x.add y).toRat = x.toRat + y.toRat := by
  have hx : (2 : ℚ) ^ max x.places y.places = 2 ^ x.places * 2 ^ (max x.places y.places - x.places) := by
    rw [← pow_add]; congr 1; omega
  have hy : (2 : ℚ) ^ max x.places y.places = 2 ^ y.places * 2 ^ (max x.places y.places - y.places) := by
    rw [← pow_add]; congr 1; omega
  simp only [DyadicRat.toRat, DyadicRat.add]
  push_cast
  rw [add_div]
  nth_rewrite 1 [hx]
  rw [hy]
  congr 1 <;> field_simp

@[simp] theorem toRat_scale (d : Nat) (x : DyadicRat) : (x.scale d).toRat = d * x.toRat := by
  simp [DyadicRat.toRat, DyadicRat.scale, mul_div_assoc]

@[simp] theorem toRat_half (x : DyadicRat) : x.half.toRat = x.toRat / 2 := by
  simp [DyadicRat.toRat, DyadicRat.half, pow_succ, div_div]

/-- The weight after the turns of R113's loop: 1/2, halved once a character. -/
theorem parseFrac_weight (v : List Bool) (p : DyadicRat × DyadicRat) :
    (v.foldl parseFracTurn p).2 = { num := p.2.num, places := p.2.places + v.length } := by
  induction v generalizing p with
  | nil => simp
  | cons c v ih => rw [List.foldl_cons, ih]; simp [parseFracTurn, DyadicRat.half]; omega

theorem parseFracFold_concat (v : List Bool) (c : Bool) :
    (parseFracFold (v ++ [c])).toRat = (parseFracFold v).toRat + digit c / 2 ^ (v.length + 1) := by
  simp only [parseFracFold, List.foldl_append, List.foldl_cons, List.foldl_nil, parseFracTurn, toRat_add, toRat_scale,
    parseFrac_weight]
  simp [DyadicRat.toRat, div_eq_mul_inv, add_comm]

@[simp] theorem bitString_length {n : Nat} (v : BitVec n) : (bitString v).length = n := by simp [bitString]

/-- The characters of a longer field: first those of the more significant part. -/
theorem bitString_concat {n : Nat} (v : BitVec n) (b : Bool) : bitString (v.concat b) = bitString v ++ [b] := by
  apply List.ext_getElem
  · simp
  · intro i h h'
    simp only [bitString, List.getElem_map, List.getElem_range, List.length_map, List.length_range, List.getElem_append]
    simp only [bitString, List.length_map, List.length_range] at h
    rcases Nat.lt_or_ge i n with hi | hi
    · simp only [hi, dite_true]
      simp only [BitVec.getMsbD, BitVec.getLsbD_concat, h, hi, decide_true, Bool.true_and]
      have : n + 1 - 1 - i ≠ 0 := by omega
      simp only [this, if_false]
      congr 1
      omega
    · have : i = n := by omega
      subst this
      simp [BitVec.getMsbD]

end Sys2Proof.Machine
end

