-- ==== Sys2Proof/Laws/PerInstr.lean ====
section
/-! SUPPORT. Statements made per instruction: the format the table gives an operation is the format of its encoding. -/

namespace Sys2Proof

/-- The formats of spec/opcode_table.json. -/
inductive Format where
  | t38
  | w32
  | pmode
deriving DecidableEq, Repr

/-- The format of a word. -/
def OpWord.format : OpWord → Format
  | .transaction _ => .t38
  | .composite _ => .t38
  | .splitter _ => .w32
  | .router _ => .w32
  | .parser _ => .pmode

/-- The "format" column of spec/opcode_table.json. -/
def Instr.format : Instr → Format
  | .decSubn _ _ => .t38
  | .decSpec _ _ => .t38
  | .decNorm _ _ _ => .t38
  | .decInvlen _ _ => .t38
  | .split _ _ _ => .w32
  | .parseInt => .pmode
  | .parseFrac => .pmode
  | .route _ => .w32
  | .decode _ _ _ _ => .t38

/-- An instruction is encoded in its row's format. -/
def Laws.EncodedFormat.Statement (i : Instr) : Prop := (encode i).format = i.format

theorem Laws.EncodedFormat.decSubn (s : SignField) (f : FracField) : Laws.EncodedFormat.Statement (.decSubn s f) := rfl
theorem Laws.EncodedFormat.decSpec (s : SignField) (f : FracField) : Laws.EncodedFormat.Statement (.decSpec s f) := rfl
theorem Laws.EncodedFormat.decNorm (s : SignField) (e : ExpField) (f : FracField) :
    Laws.EncodedFormat.Statement (.decNorm s e f) := rfl
theorem Laws.EncodedFormat.decInvlen (len : Len) (bits : W32) : Laws.EncodedFormat.Statement (.decInvlen len bits) := rfl
theorem Laws.EncodedFormat.split (s : SignField) (e : ExpField) (f : FracField) :
    Laws.EncodedFormat.Statement (.split s e f) := rfl
theorem Laws.EncodedFormat.parseInt : Laws.EncodedFormat.Statement .parseInt := rfl
theorem Laws.EncodedFormat.parseFrac : Laws.EncodedFormat.Statement .parseFrac := rfl
theorem Laws.EncodedFormat.route (e : ExpField) : Laws.EncodedFormat.Statement (.route e) := rfl
theorem Laws.EncodedFormat.decode (len : Len) (s : SignField) (e : ExpField) (f : FracField) :
    Laws.EncodedFormat.Statement (.decode len s e f) := rfl

end Sys2Proof
end

