-- ==== Sys2Proof/Laws/Values.lean ====
section
/-! SUPPORT. One lemma for each operand and packing function: what it gives on field values (R73, R74, R131, R139). -/

namespace Sys2Proof.Machine

theorem toNat_append_eq {n m : Nat} (x : BitVec n) (y : BitVec m) : (x ++ y).toNat = x.toNat * 2 ^ m + y.toNat := by
  rw [BitVec.toNat_append, ← Nat.shiftLeft_add_eq_or_of_lt y.isLt, Nat.shiftLeft_eq]

@[simp] theorem signOf_toNat (s : SignField) : signOf s.toNat = s := by
  revert s; decide

/-- The binary64 fraction of a 23-bit fraction: the 23 bits, then 29 zeros (R139). -/
theorem frac52_eq_append (f : FracField) : BitVec.ofNat 52 (f.toNat * 2 ^ 29) = f ++ 0#29 := by
  apply BitVec.eq_of_toNat_eq
  rw [toNat_append_eq]
  have := f.isLt
  simp
  omega

@[simp] theorem expField64_append (s : SignField) (e : BitVec 11) (f : BitVec 52) : expField64 (s ++ e ++ f) = e := by
  apply BitVec.eq_of_getLsbD_eq
  intro i hi
  rw [expField64, BitVec.getLsbD_extractLsb', BitVec.getLsbD_append, BitVec.getLsbD_append]
  simp [hi]

@[simp] theorem fracField64_append (s : SignField) (e : BitVec 11) (f : BitVec 52) : fracField64 (s ++ e ++ f) = f := by
  apply BitVec.eq_of_getLsbD_eq
  intro i hi
  rw [fracField64, BitVec.getLsbD_extractLsb', BitVec.getLsbD_append]
  simp [hi]

theorem msb_append64 (s : SignField) (e : BitVec 11) (f : BitVec 52) :
    (s ++ e ++ f : BitVec 64).msb = (s == 1#1) := by
  have h : (s ++ e ++ f : BitVec 64).msb = s.getLsbD 0 := by
    rw [BitVec.msb_eq_getLsbD_last, BitVec.getLsbD_append, BitVec.getLsbD_append]
    simp
  rw [h]
  clear h
  revert s
  decide

/-- `frac_num` is recovered from the parsed fraction (R17). -/
theorem fracNumerator_eq {q : DyadicRat} {f : FracField} (h : q.toRat = f.toNat / 2 ^ 23) :
    fracNumerator q = f.toNat := by
  unfold DyadicRat.toRat at h
  have hq : (q.num * 2 ^ 23 : ℚ) = f.toNat * 2 ^ q.places := by field_simp at h; linarith
  have hn : q.num * 2 ^ 23 = f.toNat * 2 ^ q.places := by exact_mod_cast hq
  rw [fracNumerator, Config.fracBits, hn]
  exact Nat.mul_div_cancel _ (by positivity)

/-- A fraction below 1 has a numerator of 23 bits (R110). -/
theorem fracNumerator_lt {q : DyadicRat} (h : q.num < 2 ^ q.places) : fracNumerator q < 2 ^ 23 := by
  unfold fracNumerator Config.fracBits
  rw [Nat.div_lt_iff_lt_mul (by positivity), mul_comm]
  exact Nat.mul_lt_mul_of_pos_left h (by positivity)

end Sys2Proof.Machine
end

