-- ==== Sys2Proof/Tests/Slice0.lean ====
section
/-! SUPPORT. Tests from the vectors of spec/95_test_vectors.md, the refusals of WellFormed, and a witness for the
hypotheses of each statement. -/

open Sys2Proof Sys2Proof.Machine

/-! ### WellFormed refuses (R75) -/

theorem test_wf_refuses_norm_exponent_zero : (Instr.decNorm 0#1 0x00#8 1#23).wellFormed = false := by decide
theorem test_wf_refuses_norm_exponent_special : (Instr.decNorm 0#1 0xFF#8 1#23).wellFormed = false := by decide
theorem test_wf_refuses_invlen_full_length : (Instr.decInvlen 32#6 0#32).wellFormed = false := by decide

/-! ### Decoding: words written out from R70, R71, R75, R82 -/

/-- M1. -/
theorem test_decode_subn : decode (.transaction 0b10000000000000000000000000000000000001#38) = .decSubn 0#1 1#23 := by decide
/-- M2. -/
theorem test_decode_spec : decode (.transaction 0b10000011111111110000000000000000000000#38) = .decSpec 1#1 0x400000#23 := by decide
/-- M3, M4: the boundaries of the normal class. -/
theorem test_decode_norm : decode (.transaction 0b10000000000000100000000000000000000000#38) = .decNorm 0#1 0x01#8 0#23 ∧
    decode (.transaction 0b10000001111111011111111111111111111111#38) = .decNorm 0#1 0xFE#8 0x7FFFFF#23 := by decide
/-- M5, M6, M7: length first, and length 0 is not DEC.SUBN. -/
theorem test_decode_invlen : decode (.transaction 0b01111101111111100000000000000000000000#38) = .decInvlen 31#6 0x7F800000#32 ∧
    decode (.transaction 0b00000000000000000000000000000000000000#38) = .decInvlen 0#6 0#32 ∧
    decode (.transaction 0b10000100000000000000000000000000000000#38) = .decInvlen 33#6 0#32 := by decide
/-- F6, F7, F8: each field's end bits. -/
theorem test_decode_split : decode (.splitter 0b00000000100000000000000000000000#32) = .split 0#1 0x01#8 0#23 ∧
    decode (.splitter 0b00000000010000000000000000000000#32) = .split 0#1 0x00#8 0x400000#23 ∧
    decode (.splitter 0b01000000000000000000000000000000#32) = .split 0#1 0x80#8 0#23 := by decide
theorem test_decode_route : decode (.router 0b10111111110000000000000000000000#32) = .route 0x7F#8 := by decide
/-- R82: 0 = Integer, 1 = Fractional. -/
theorem test_decode_parse : decode (.parser 0#1) = .parseInt ∧ decode (.parser 1#1) = .parseFrac := by decide
theorem test_decode_composite :
    decode (.composite 0b10000000111110001000000000000000000000#38) = .decode 32#6 0#1 0x7C#8 0x200000#23 := by decide

/-- The numbering of the table: the low bits come first, and a bit above the format is rejected by name. -/
theorem test_table_words : decodeTableWord 40 0x20C0000000 = some (.decNorm 1#1 0x80#8 0#23) ∧
    decodeTableWord 32 0x00800000 = some (.split 0#1 0x01#8 0#23) ∧ decodeTableWord 8 1 = some .parseFrac ∧
    decodeTableWord 40 0x4000000000 = none := by decide
theorem test_table_rejects : OpWord.ofNumber 8 2 = .error .bitsAbovePmode ∧
    OpWord.ofNumber 32 0x100000000 = .error .bitsAboveW32 ∧ OpWord.ofNumber 40 0x4000000000 = .error .bitsAboveT38 ∧
    OpWord.ofNumber 48 0 = .error .noSuchFormat := by decide

/-! ### One step on a small state -/

/-- The record on the outputs after one step, if `out_valid` = 1. -/
def outAfter (s : State) : Option Record :=
  match step s with
  | .next t => if t.outValid then some t.out else none
  | .fault _ => none
  | .refused _ => none

/-- The locals after one step. -/
def workAfter (s : State) : Option Work :=
  match step s with
  | .next t => some t.work
  | .fault _ => none
  | .refused _ => none

/-- The machine after reset with a word presented next. -/
def presenting (w : OpWord) : State := { State.reset with upstream := [InPorts.ofWord w] }

/-- The same with the locals the earlier stages left. -/
def staged (w : OpWord) (fs : SplitFields) (sv ev num places : Nat) : State :=
  { presenting w with work := { fields := fs, signVal := sv, expVal := ev, fraction := { num := num, places := places } } }

/-- A record by its columns in the order of 95_test_vectors.md: err, cls, sign_f, exp_f, frac_f, tags, exp_unb, sig, value64. -/
def row (err cls : BitVec 2) (s : BitVec 1) (e : BitVec 8) (f : BitVec 23) (tags : BitVec 4) (u : BitVec 8) (g : BitVec 24)
    (v : BitVec 64) : Record :=
  { err := err, cls := cls, signF := s, expF := e, fracF := f, fracZero := tags.getLsbD 3, isZero := tags.getLsbD 2,
    isInf := tags.getLsbD 1, isNan := tags.getLsbD 0, expUnb := u, sig := g, value64 := v }

/-- B2: negative zero. -/
theorem test_subn_negative_zero : outAfter (presenting (.transaction 0x2080000000#38)) =
    some (row 0#2 0#2 1#1 0x00#8 0x000000#23 0b1100#4 0x82#8 0x000000#24 0x8000000000000000#64) := by decide
/-- B10. -/
theorem test_subn_largest : outAfter (presenting (.transaction 0x20807FFFFF#38)) =
    some (row 0#2 0#2 1#1 0x00#8 0x7FFFFF#23 0b0000#4 0x82#8 0x7FFFFF#24 0xB80FFFFFC0000000#64) := by decide
/-- NM14. -/
theorem test_norm_negative : outAfter (presenting (.transaction 0x20C2F6E979#38)) =
    some (row 0#2 1#2 1#1 0x85#8 0x76E979#23 0b0000#4 0x06#8 0xF6E979#24 0xC05EDD2F20000000#64) := by decide
/-- NM1. -/
theorem test_norm_smallest : outAfter (presenting (.transaction 0x2000800000#38)) =
    some (row 0#2 1#2 0#1 0x01#8 0x000000#23 0b1000#4 0x82#8 0x800000#24 0x3810000000000000#64) := by decide
/-- X2: the sentinel is +0.0 although the sign is 1. -/
theorem test_spec_negative_infinity : outAfter (presenting (.transaction 0x20FF800000#38)) =
    some (row 2#2 2#2 1#1 0xFF#8 0x000000#23 0b1010#4 0x00#8 0x000000#24 0x0000000000000000#64) := by decide
/-- X6. -/
theorem test_spec_nan : outAfter (presenting (.transaction 0x207FFFFFFF#38)) =
    some (row 2#2 2#2 0#1 0xFF#8 0x7FFFFF#23 0b0001#4 0x00#8 0x000000#24 0x0000000000000000#64) := by decide
/-- L5: the length error wins over exponent 255. -/
theorem test_invlen_before_special : outAfter (presenting (.transaction 0x1F7F800000#38)) =
    some (row 1#2 3#2 0#1 0x00#8 0x000000#23 0b0000#4 0x00#8 0x000000#24 0x0000000000000000#64) := by decide
/-- L7. -/
theorem test_invlen_saturated : outAfter (presenting (.transaction 0x3FFFFFFFFF#38)) =
    some (row 1#2 3#2 0#1 0x00#8 0x000000#23 0b0000#4 0x00#8 0x000000#24 0x0000000000000000#64) := by decide
/-- F9. -/
theorem test_split_fields : workAfter (presenting (.splitter 0xC2F6E979#32)) =
    some { Work.empty with fields := { sign := 1#1, exponent := 0x85#8, fraction := 0x76E979#23 } } := by decide
/-- F10: with `in_len` = 31 no field is delivered. -/
theorem test_split_invalid_length : outAfter { State.reset with upstream :=
      [{ InPorts.ofWord (.splitter 0xC2F6E979#32) with len := 31#6 }] } =
    some (row 1#2 3#2 0#1 0x00#8 0x000000#23 0b0000#4 0x00#8 0x000000#24 0x0000000000000000#64) := by decide
/-- I3, I9. -/
theorem test_parse_int : (workAfter (staged (.parser 0#1) { sign := 1#1, exponent := 0x85#8, fraction := 0#23 } 0 0 0 0)).map
    (fun k => (k.signVal, k.expVal)) = some (1, 133) := by decide
/-- I12: leading zeros do not matter. -/
theorem test_parse_int_generic : parseIntFold [true, false, true] = 5 ∧ parseIntFold [false, false, true, false, true] = 5 := by decide
/-- Q13: 7793017 over 2^23. -/
theorem test_parse_frac : (workAfter (staged (.parser 1#1) { sign := 0#1, exponent := 0#8, fraction := 0x76E979#23 } 0 0 0 0)).map
    (fun k => (k.fraction.num, k.fraction.places)) = some (7793017, 23) := by decide
/-- Q1, Q5. -/
theorem test_parse_frac_generic : parseFracFold [] = { num := 0, places := 0 } ∧
    parseFracFold [true, false, false, true] = { num := 9, places := 4 } := by decide
/-- P5, stages 5 to 8. -/
theorem test_route_normal : outAfter (staged (.router 0x3E200000#32) { sign := 0#1, exponent := 0x7C#8, fraction := 0x200000#23 }
      0 124 1 2) =
    some (row 0#2 1#2 0#1 0x7C#8 0x200000#23 0b0000#4 0xFD#8 0xA00000#24 0x3FC4000000000000#64) := by decide
/-- T1, B6. -/
theorem test_route_subnormal : outAfter (staged (.router 0x00000003#32) { sign := 0#1, exponent := 0x00#8, fraction := 0x000003#23 }
      0 0 3 23) =
    some (row 0#2 0#2 0#1 0x00#8 0x000003#23 0b0000#4 0x82#8 0x000003#24 0x36B8000000000000#64) := by decide
/-- NM5. -/
theorem test_decode_whole : outAfter (presenting (.composite 0x203DCCCCCD#38)) =
    some (row 0#2 1#2 0#1 0x7B#8 0x4CCCCD#23 0b0000#4 0xFC#8 0xCCCCCD#24 0x3FB99999A0000000#64) := by decide
/-- B3. -/
theorem test_decode_smallest : outAfter (presenting (.composite 0x2000000001#38)) =
    some (row 0#2 0#2 0#1 0x00#8 0x000001#23 0b0000#4 0x82#8 0x000001#24 0x36A0000000000000#64) := by decide

/-- The host's two questions on one word a format: the decoder gives the row's operation and the next step runs it. -/
theorem test_fetch_runs_transaction : outAfter (State.reset.withFetchWord 40 0x2040000000) =
    some (row 0#2 1#2 0#1 0x80#8 0x000000#23 0b1000#4 0x01#8 0x800000#24 0x4000000000000000#64) := by decide
theorem test_fetch_runs_parser : workAfter (State.reset.withFetchWord 8 1) =
    some { Work.empty with fraction := { num := 0, places := 23 } } := by decide

/-! ### Witnesses: every statement's hypotheses are met by a concrete state and operands, each clause at a boundary -/

/-- A transaction under way in the pipeline, and a reset asserted. -/
def pipelined : State := { State.reset with
  pipe := [some Record.invalidLength], upstream := [{ InPorts.quiet with rst := true }, InPorts.ofWord (.transaction 0#38)] }

/-- A word with a record, by the model's own meaning. -/
theorem witness_transaction_record_normal : ∃ r, TransactionRecord 0x20C0000000#38 r ∧ r.err = 0#2 ∧ r.cls = 1#2 :=
  ⟨_, fun s => ⟨_, rfl, finish_delivers s _⟩, by decide, by decide⟩
theorem witness_transaction_record_sign_flipped : ∃ r r', TransactionRecord (32#6 ++ (1#1 ++ 0x80#8 ++ 0#23 : BitVec 32)) r ∧
    TransactionRecord (32#6 ++ (~~~(1#1) ++ 0x80#8 ++ 0#23 : BitVec 32)) r' :=
  ⟨_, _, fun s => ⟨_, rfl, finish_delivers s _⟩, fun s => ⟨_, rfl, finish_delivers s _⟩⟩
theorem witness_transaction_record_subnormal : ∃ r, TransactionRecord 0x20007FFFFF#38 r ∧ r.err = 0#2 ∧ r.cls = 0#2 :=
  ⟨_, fun s => ⟨_, rfl, finish_delivers s _⟩, by decide, by decide⟩
theorem witness_transaction_record_special : ∃ r, TransactionRecord 0x207F800000#38 r ∧ r.err = 2#2 ∧ r.cls = 2#2 :=
  ⟨_, fun s => ⟨_, rfl, finish_delivers s _⟩, by decide, by decide⟩
theorem witness_transaction_record_none : ∃ r, TransactionRecord 0x1F40000000#38 r ∧ r.err = 1#2 ∧ r.cls = 3#2 :=
  ⟨_, fun s => ⟨_, rfl, finish_delivers s _⟩, by decide, by decide⟩
theorem witness_results_are_injective : ∃ w r, TransactionRecord w r ∧ r.err = 0#2 ∧ (r.value64 = r.value64 ∨ r.value = r.value) :=
  ⟨0x20C0000000#38, _, fun s => ⟨_, rfl, finish_delivers s _⟩, by decide, .inl rfl⟩
theorem witness_record_ignores_history : ∃ t t' r r', exec (decode (.transaction 0x20C0000000#38)) State.reset = .next t ∧
    Delivers State.reset t r ∧ exec (decode (.composite 0x20C0000000#38)) pipelined = .next t' ∧ Delivers pipelined t' r' :=
  ⟨_, _, _, _, rfl, finish_delivers _ _, rfl, finish_delivers _ _⟩

theorem witness_decode_of_encode : (Instr.decNorm 1#1 0x01#8 0#23).wellFormed = true ∧
    (Instr.decNorm 1#1 0xFE#8 0#23).wellFormed = true ∧ (Instr.decInvlen 31#6 0#32).wellFormed = true := by decide
theorem witness_class_map_word : (0x2040000000#38 : T38) = 32#6 ++ (0#1 ++ 0x80#8 ++ 0#23 : BitVec 32) := by decide
theorem witness_full_length_port : (presenting (.splitter 0#32)).sample.inp.len = 32#6 := by decide
theorem witness_other_length_port : State.reset.inp.len ≠ 32#6 := by decide
theorem witness_normal_exponents : (0x01#8).toNat ≠ 0 ∧ (0x01#8).toNat ≠ 255 ∧ (0xFE#8).toNat ≠ 0 ∧ (0xFE#8).toNat ≠ 255 := by decide
theorem witness_invalid_lengths : (0#6 : Len) ≠ 32#6 ∧ (31#6 : Len) ≠ 32#6 ∧ (33#6 : Len) ≠ 32#6 ∧ (63#6 : Len) ≠ 32#6 := by decide
theorem witness_not_special : (0x00#8 : ExpField) ≠ 0xFF#8 ∧ (0xFE#8 : ExpField) ≠ 0xFF#8 ∧ (0xFE#8 : ExpField) ≠ 0x00#8 := by decide

/-- Locals as the stages leave them for the boundary exponents of ROUTE's three clauses. -/
theorem witness_route_after_stages : ∀ e ∈ [0x00#8, 0x01#8, 0xFE#8, 0xFF#8],
    (staged (.router 0#32) { sign := 1#1, exponent := e, fraction := 1#23 } 1 e.toNat 1 23).work.fields.exponent = e ∧
    (staged (.router 0#32) { sign := 1#1, exponent := e, fraction := 1#23 } 1 e.toNat 1 23).work.signVal = (1#1).toNat ∧
    (staged (.router 0#32) { sign := 1#1, exponent := e, fraction := 1#23 } 1 e.toNat 1 23).work.fraction.toRat =
      ((1#23).toNat : ℚ) / 2 ^ 23 := by
  intro e _
  exact ⟨rfl, rfl, by simp [staged, DyadicRat.toRat]⟩

theorem witness_step_presents : ∃ p rest, (presenting (.parser 1#1)).upstream = p :: rest ∧ p.valid = true ∧
    (p.rst = false ∨ (presenting (.parser 1#1)).pipe = []) ∧ p.component = .parser := ⟨_, _, rfl, by decide⟩
theorem witness_step_presents_others : ∀ w ∈ [OpWord.transaction 0#38, .composite 0#38, .splitter 0#32, .router 0#32],
    ∃ p rest, (presenting w).upstream = p :: rest ∧ p.valid = true ∧ p.rst = false ∧ p.component ≠ .parser := by
  intro w h
  exact ⟨_, _, rfl, by revert h; revert w; decide⟩
theorem witness_fetch_word : decodeTableWord 40 0x2040000000 = some (.decNorm 0#1 0x80#8 0#23) := by decide
theorem witness_idle : State.reset.upstream = [] ∧ ∃ p rest, ({ State.reset with upstream := [InPorts.quiet] } : State).upstream = p :: rest ∧
    p.valid = false ∧ p.rst = false := ⟨rfl, _, _, rfl, by decide⟩
theorem witness_reset_in_flight : ∃ p rest, pipelined.upstream = p :: rest ∧ p.rst = true ∧ pipelined.pipe ≠ [] :=
  ⟨_, _, rfl, by decide⟩
/-- After the reset step above nothing is in flight, and a transaction is presented next. -/
theorem witness_silent_after_reset : ∃ s t, step pipelined = .next s ∧ (∀ o ∈ s.pipe, o = none) ∧ s.outValid = false ∧ 1 ≤ s.latency ∧
    Sys2Proof.core.run 1 s = .next t :=
  ⟨_, _, rfl, by decide, rfl, by decide, rfl⟩
theorem witness_step_answers : ∃ t, step (presenting (.transaction 0x2040000000#38)) = .next t ∧
    (presenting (.transaction 0x2040000000#38)).inv = true := ⟨_, rfl, by decide⟩
theorem witness_run_in_order : ∃ ws s, (∀ o ∈ State.pipe s, o = none) ∧ 1 ≤ s.latency ∧ ws ≠ [] ∧
    s.upstream = ws.map (fun w => InPorts.ofWord (.transaction w)) :=
  ⟨[0x2040000000#38, 0#38], { State.reset with pipe := [none, none], upstream :=
    [InPorts.ofWord (.transaction 0x2040000000#38), InPorts.ofWord (.transaction 0#38)] }, by decide, by decide, by decide, rfl⟩
end

/-! SUPPORT. The class map read field by field (R75), the records of the four operations, and the proof of O4. -/

namespace Sys2Proof

open Machine

/-! ### A word and a mask, field by field -/

theorem t38Of_and (len len' : Len) (b b' : W32) : t38Of len b &&& t38Of len' b' = t38Of (len &&& len') (b &&& b') :=
  BitVec.and_append

theorem w32Of_and (s s' : SignField) (e e' : ExpField) (f f' : FracField) :
    w32Of s e f &&& w32Of s' e' f' = w32Of (s &&& s') (e &&& e') (f &&& f') :=
  BitVec.and_append.trans (congrArg (· ++ (f &&& f')) BitVec.and_append)

theorem t38Of_w32Of_and (len len' : Len) (s s' : SignField) (e e' : ExpField) (f f' : FracField) :
    t38Of len (w32Of s e f) &&& t38Of len' (w32Of s' e' f') =
      t38Of (len &&& len') (w32Of (s &&& s') (e &&& e') (f &&& f')) := by
  rw [t38Of_and, w32Of_and]

theorem t38Of_w32Of_inj {len len' : Len} {s s' : SignField} {e e' : ExpField} {f f' : FracField} :
    t38Of len (w32Of s e f) = t38Of len' (w32Of s' e' f') ↔ len = len' ∧ s = s' ∧ e = e' ∧ f = f' := by
  constructor
  · intro h
    have hbits : w32Of s e f = w32Of s' e' f' := by simpa using congrArg t38Bits h
    exact ⟨by simpa using congrArg t38Len h, by simpa using congrArg w32Sign hbits,
      by simpa using congrArg w32Exp hbits, by simpa using congrArg w32Frac hbits⟩
  · rintro ⟨rfl, rfl, rfl, rfl⟩
    rfl

/-- A mask that covers the length and the exponent compares exactly these two fields (R75, `DEC.SUBN` and `DEC.SPEC`). -/
theorem and_lenExpMask_eq_iff (len len' : Len) (s : SignField) (e e' : ExpField) (f : FracField) :
    t38Of len (w32Of s e f) &&& 0x3F7F800000#38 = t38Of len' (w32Of 0#1 e' 0#23) ↔ len = len' ∧ e = e' := by
  have hmask : 0x3F7F800000#38 = t38Of (BitVec.allOnes 6) (w32Of 0#1 (BitVec.allOnes 8) 0#23) := by decide
  rw [hmask, t38Of_w32Of_and, t38Of_w32Of_inj]
  simp only [BitVec.and_allOnes, BitVec.and_zero, true_and, and_true]

/-- A mask that covers the length alone compares that field (R75, `DEC.NORM`). -/
theorem and_lenMask_eq_iff (len len' : Len) (s : SignField) (e : ExpField) (f : FracField) :
    t38Of len (w32Of s e f) &&& 0x3F00000000#38 = t38Of len' (w32Of 0#1 0#8 0#23) ↔ len = len' := by
  have hmask : 0x3F00000000#38 = t38Of (BitVec.allOnes 6) (w32Of 0#1 0#8 0#23) := by decide
  rw [hmask, t38Of_w32Of_and, t38Of_w32Of_inj]
  simp only [BitVec.and_allOnes, BitVec.and_zero, and_true]

/-! ### The rows of the class map, and the operation they select -/

theorem subnRow_matches_iff (len : Len) (s : SignField) (e : ExpField) (f : FracField) :
    t38Of len (w32Of s e f) &&& 0x3F7F800000#38 = 0x2000000000#38 ↔ len = 32#6 ∧ e.toNat = 0 := by
  rw [show e.toNat = 0 ↔ e = 0x00#8 by bv_omega]
  exact and_lenExpMask_eq_iff len 32#6 s e 0x00#8 f

theorem specRow_matches_iff (len : Len) (s : SignField) (e : ExpField) (f : FracField) :
    t38Of len (w32Of s e f) &&& 0x3F7F800000#38 = 0x207F800000#38 ↔ len = 32#6 ∧ e.toNat = 255 := by
  rw [show e.toNat = 255 ↔ e = 0xFF#8 by bv_omega]
  exact and_lenExpMask_eq_iff len 32#6 s e 0xFF#8 f

theorem normRow_matches_iff (len : Len) (s : SignField) (e : ExpField) (f : FracField) :
    t38Of len (w32Of s e f) &&& 0x3F00000000#38 = 0x2000000000#38 ↔ len = 32#6 :=
  and_lenMask_eq_iff len 32#6 s e f

/-- R75's match-and-mask rows, tried in their order. -/
theorem classOf_eq_rows (w : T38) :
    classOf w =
      if w &&& 0x3F7F800000#38 = 0x2000000000#38 then .subn
      else if w &&& 0x3F7F800000#38 = 0x207F800000#38 then .spec
      else if w &&& 0x3F00000000#38 = 0x2000000000#38 then .norm
      else .invlen := by
  simp [classOf, classRows, firstMatch]

/-- R75's tests, made in their order: the length first, then the stored exponent. -/
theorem classOf_eq_tests (len : Len) (s : SignField) (e : ExpField) (f : FracField) :
    classOf (t38Of len (w32Of s e f)) =
      if len ≠ 32#6 then .invlen
      else if e.toNat = 0 then .subn
      else if e.toNat = 255 then .spec
      else .norm := by
  simp only [classOf_eq_rows, subnRow_matches_iff, specRow_matches_iff, normRow_matches_iff]
  by_cases hlen : len = 32#6 <;> simp [hlen]

/-- The instruction that a row of the class map makes of a transaction's fields. -/
def ClassOp.toInstr (op : ClassOp) (len : Len) (s : SignField) (e : ExpField) (f : FracField) : Instr :=
  match op with
  | .subn => .decSubn s f
  | .spec => .decSpec s f
  | .norm => .decNorm s e f
  | .invlen => .decInvlen len (w32Of s e f)

theorem decode_transaction_t38Of (len : Len) (s : SignField) (e : ExpField) (f : FracField) :
    decode (.transaction (t38Of len (w32Of s e f))) =
      (classOf (t38Of len (w32Of s e f))).toInstr len s e f := by
  simp only [decode, decodeTransaction]
  cases classOf (t38Of len (w32Of s e f)) <;> simp [ClassOp.toInstr]

/-! ### The record a row delivers -/

/-- The record with which a row of the class map ends its transaction (R133 to R136). -/
def ClassOp.record (op : ClassOp) (s : SignField) (e : ExpField) (f : FracField) : Record :=
  match op with
  | .subn => (Record.described { sign := s, exponent := 0x00#8, fraction := f } clsSubnormal).driveSubnormal s.toNat f.toNat
  | .spec => (Record.described { sign := s, exponent := 0xFF#8, fraction := f } clsSpecial).driveSpecial
  | .norm => (Record.described { sign := s, exponent := e, fraction := f } clsNormal).driveNormal s.toNat e.toNat f.toNat
  | .invlen => Record.invalidLength

theorem exec_classOp (op : ClassOp) (len : Len) (s : SignField) (e : ExpField) (f : FracField) (st : State) :
    exec (op.toInstr len s e f) st = .next (st.finish (op.record s e f)) := by
  cases op <;> rfl

/-- Every transaction word has a record: that of the row it selects. -/
theorem transactionRecord_t38Of (len : Len) (s : SignField) (e : ExpField) (f : FracField) :
    TransactionRecord (t38Of len (w32Of s e f)) ((classOf (t38Of len (w32Of s e f))).record s e f) := by
  intro st
  rw [decode_transaction_t38Of, exec_classOp]
  exact ⟨_, rfl, finish_delivers st _⟩

/-- The class and the error that R75 gives a row, in the codes of R83. -/
def ClassOp.classAndError : ClassOp → BitVec 2 × BitVec 2
  | .subn => (0#2, 0#2)
  | .spec => (2#2, 2#2)
  | .norm => (1#2, 0#2)
  | .invlen => (3#2, 1#2)

theorem ClassOp.record_cls_err (op : ClassOp) (s : SignField) (e : ExpField) (f : FracField) :
    ((op.record s e f).cls, (op.record s e f).err) = op.classAndError := by
  cases op <;> rfl

/-! ### The statement -/

/-- Settles O4: the tests and the rows give the same `classOf`, and instruction and record depend on the word's class
through it alone. -/
theorem classMapIsTheOrderedTests : Obligations.ClassMapIsTheOrderedTests := by
  unfold Obligations.ClassMapIsTheOrderedTests
  rintro len s e f w hw
  obtain rfl : w = t38Of len (w32Of s e f) := hw
  refine ⟨?tests, ?rows, _, transactionRecord_t38Of len s e f, ?codes⟩
  case tests =>
    rw [decode_transaction_t38Of, classOf_eq_tests]
    split_ifs <;> rfl
  case rows =>
    rw [decode_transaction_t38Of, classOf_eq_rows]
    split_ifs <;> rfl
  case codes =>
    rw [ClassOp.record_cls_err, classOf_eq_tests]
    split_ifs <;> rfl

end Sys2Proof

/-! SUPPORT. `SPLIT` of a word in its two cases (R100, R101), and the proof of O8. -/

namespace Sys2Proof

open Machine

/-- R181: the record `InvalidLength` forces is the one the rule writes out. -/
theorem invalidLength_isInvalidLengthRecord : IsInvalidLengthRecord Record.invalidLength :=
  ⟨rfl, rfl, by decide, by decide, by decide⟩

/-- R100: on a full length `SPLIT` writes the three fields of its word and nothing else. -/
theorem exec_splitter_of_fullLength (w : W32) {st : State} (hlen : st.inp.len = 32#6) :
    exec (decode (.splitter w)) st = .next { st with work := { st.work with fields :=
      { sign := w32Sign w, exponent := w32Exp w, fraction := w32Frac w } } } := by
  obtain ⟨-, hgoes⟩ | ⟨hne, -⟩ := splitStage_cases st.inp.len
    { sign := w32Sign w, exponent := w32Exp w, fraction := w32Frac w } st
  · simp only [decode, exec, execSplit, hgoes, state_goesOn]
  · exact absurd hlen hne

/-- R101: on any other length `SPLIT` ends the transaction with the record of `InvalidLength`. -/
theorem exec_splitter_of_wrongLength (w : W32) {st : State} (hlen : st.inp.len ≠ 32#6) :
    exec (decode (.splitter w)) st = .next (st.finish Record.invalidLength) := by
  obtain ⟨heq, -⟩ | ⟨-, hends⟩ := splitStage_cases st.inp.len
    { sign := w32Sign w, exponent := w32Exp w, fraction := w32Frac w } st
  · exact absurd heq hlen
  · simp only [decode, exec, execSplit, hends, state_ended]

/-- Settles O8: the two cases of the length, the joined fields being the word again. -/
theorem splitCutsTheWordOrRaises : Obligations.SplitCutsTheWordOrRaises := by
  unfold Obligations.SplitCutsTheWordOrRaises
  intro w st
  refine ⟨?fullLength, w32Of_fields w, ?wrongLength⟩
  case fullLength => exact exec_splitter_of_fullLength w
  case wrongLength =>
    intro hlen
    exact ⟨_, _, exec_splitter_of_wrongLength w hlen, finish_delivers st _, invalidLength_isInvalidLengthRecord⟩

end Sys2Proof

/-! SUPPORT. Zero characters in the two parser folds (R117), and the proof of O11. -/

namespace Sys2Proof

open Machine

@[simp] theorem digit_false : digit false = 0 := rfl

@[simp] theorem digit_true : digit true = 1 := rfl

/-- R117: zeros on the left leave the accumulator at its initial 0. -/
theorem parseIntFold_replicate_false_append (n : Nat) (v : List Bool) :
    parseIntFold (List.replicate n false ++ v) = parseIntFold v := by
  induction n with
  | zero => rfl
  | succ n ih =>
    have first_zero (u : List Bool) : parseIntFold (false :: u) = parseIntFold u := rfl
    rw [List.replicate_succ, List.cons_append, first_zero, ih]

/-- R117: zeros on the right add nothing, whatever their weight. -/
theorem parseFracFold_append_replicate_false (v : List Bool) (n : Nat) :
    (parseFracFold (v ++ List.replicate n false)).toRat = (parseFracFold v).toRat := by
  induction n with
  | zero => simp
  | succ n ih =>
    rw [List.replicate_succ', ← List.append_assoc, parseFracFold_concat, ih]
    simp

/-- R113: the first weight is 1/2. -/
theorem parseFracFold_singleton_true : (parseFracFold [true]).toRat = 1 / 2 := by
  have concat_one := parseFracFold_concat [] true
  simpa [parseFracFold, DyadicRat.toRat] using concat_one

/-- Settles O11: padding changes neither fold, so zeros parse as the empty string does and `1` with zeros after it
as `1` alone. -/
theorem parserPaddingProperties : Obligations.ParserPaddingProperties := by
  unfold Obligations.ParserPaddingProperties
  refine ⟨?allZeros, ?oneThenZeros, parseFracFold_append_replicate_false, ?prepending⟩
  case allZeros =>
    intro n
    simpa using parseIntFold_replicate_false_append n []
  case oneThenZeros =>
    intro n
    exact (parseFracFold_append_replicate_false [true] n).trans parseFracFold_singleton_true
  case prepending => exact fun v n => parseIntFold_replicate_false_append n v

end Sys2Proof

/-! SUPPORT. The operands and the records of the three cases of the router (R132 to R135), and the proof of O14. -/

namespace Sys2Proof

open Machine

/-! ### The operands on field values -/

/-- R134: in the normal class subtracting the bias never leaves the signed 8-bit range. -/
theorem unbiased_toInt {v : Nat} (hpos : 0 < v) (hlt : v < 255) : (unbiased v).toInt = (v : ℤ) - 127 := by
  rw [unbiased, Config.bias, BitVec.toInt_ofInt]
  exact Int.bmod_eq_of_le (by omega) (by omega)

/-- R74: the implicit leading 1 stands in front of the 23 bits. -/
theorem sigNormal_toNat (f : FracField) : sigNormal f.toNat = 1#1 ++ f := by
  have hlt : 2 ^ 23 + f.toNat < 2 ^ 24 := by have := f.isLt; omega
  apply BitVec.eq_of_toNat_eq
  rw [toNat_append_eq, sigNormal, Config.fracBits, BitVec.toNat_ofNat, Nat.mod_eq_of_lt hlt]
  simp

/-- R74: no implicit leading 1 stands in front of the 23 bits. -/
theorem sigSubnormal_toNat (f : FracField) : sigSubnormal f.toNat = 0#1 ++ f := by
  have hlt : f.toNat < 2 ^ 24 := by have := f.isLt; omega
  apply BitVec.eq_of_toNat_eq
  rw [toNat_append_eq, sigSubnormal, BitVec.toNat_ofNat, Nat.mod_eq_of_lt hlt]
  simp

/-- R139: re-biasing adds 1023 - 127 = 896, and 29 zeros extend the fraction. -/
theorem pack64Normal_toNat (s : SignField) (v : Nat) (f : FracField) :
    pack64Normal s.toNat v f.toNat = s ++ BitVec.ofNat 11 (v + 896) ++ f ++ 0#29 := by
  have hbias : v + Config.bias64 - Config.bias = v + 896 := by
    simp only [Config.bias64, Config.bias]
    omega
  rw [pack64Normal, binary64Of, signOf_toNat, hbias, frac52_eq_append]
  apply BitVec.eq_of_toNat_eq
  simp only [toNat_append_eq]
  ring

/-- R141: a zero keeps its sign. -/
theorem pack64Denormal_zero (s : SignField) : pack64Denormal s.toNat 0 = s ++ 0#63 := by
  have hzeros : (0#11 ++ 0#52 : BitVec 63) = 0#63 := by decide
  rw [pack64Denormal, if_pos rfl, pack64Zero, binary64Of, signOf_toNat, ← hzeros]
  exact BitVec.append_assoc

/-- R140: the most significant 1, in position `p`, becomes the implicit one, and the `p` bits below it are the fraction. -/
theorem pack64Denormal_normalised (s : SignField) {p k : Nat} (hk : k < 2 ^ p) :
    pack64Denormal s.toNat (2 ^ p + k) =
      s ++ BitVec.ofNat 11 (p + 874) ++ BitVec.ofNat 52 (k * 2 ^ (52 - p)) := by
  have hne : 2 ^ p + k ≠ 0 := by positivity
  have hlog : (2 ^ p + k).log2 = p := (Nat.log2_eq_iff hne).mpr ⟨by omega, by omega⟩
  have hbias : p + Config.bias64 - 149 = p + 874 := by
    simp only [Config.bias64]
    omega
  rw [pack64Denormal, if_neg hne, pack64Subnormal, hlog, hbias, binary64Of, signOf_toNat, Nat.add_sub_cancel_left]

/-! ### The records of the three cases -/

theorem decide_toNat_eq_zero (f : FracField) : decide (f.toNat = 0) = decide (f = 0#23) :=
  decide_eq_decide.mpr (BitVec.toNat_eq (y := 0#23)).symm

/-- R143: the tags of a described record, of which only those of its class can be set. -/
theorem described_tags (fs : SplitFields) (cls : BitVec 2) :
    (Record.described fs cls).fracZero = decide (fs.fraction = 0#23) ∧
    (Record.described fs cls).isZero = (decide (cls = 0#2) && decide (fs.fraction = 0#23)) ∧
    (Record.described fs cls).isInf = (decide (cls = 2#2) && decide (fs.fraction = 0#23)) ∧
    (Record.described fs cls).isNan = (decide (cls = 2#2) && decide (fs.fraction ≠ 0#23)) := by
  rw [decide_not, ← decide_toNat_eq_zero]
  exact ⟨rfl, rfl, rfl, rfl⟩

/-- R135, R182: the special case keeps what describes the word and drives the sentinel. -/
theorem driveSpecial_isSpecialRecord {fs : SplitFields} (hexp : fs.exponent = 0xFF#8) :
    IsSpecialRecord (Record.described fs clsSpecial).driveSpecial fs.sign fs.fraction where
  err := rfl
  cls := rfl
  fields := ⟨rfl, hexp, rfl⟩
  tags := described_tags fs clsSpecial
  numeric := ⟨rfl, rfl, rfl⟩

/-- R133, R140, R141: the subnormal case on the parsed values of its fields. -/
theorem driveSubnormal_isSubnormalRecord {fs : SplitFields} (hexp : fs.exponent = 0x00#8) :
    IsSubnormalRecord ((Record.described fs clsSubnormal).driveSubnormal fs.sign.toNat fs.fraction.toNat)
      fs.sign fs.fraction where
  err := rfl
  cls := rfl
  fields := ⟨rfl, hexp, rfl⟩
  tags := described_tags fs clsSubnormal
  expUnb := rfl
  sig := sigSubnormal_toNat fs.fraction
  zero := by
    intro hzero
    rw [Record.driveSubnormal, hzero]
    exact pack64Denormal_zero fs.sign
  normalised := by
    intro p k hfrac hk
    rw [Record.driveSubnormal, hfrac]
    exact pack64Denormal_normalised fs.sign hk

/-- R134, R139: the normal case on the parsed values of its fields. -/
theorem driveNormal_isNormalRecord {fs : SplitFields} (hzero : fs.exponent.toNat ≠ 0) (hspecial : fs.exponent.toNat ≠ 255) :
    IsNormalRecord
      ((Record.described fs clsNormal).driveNormal fs.sign.toNat fs.exponent.toNat fs.fraction.toNat)
      fs.sign fs.exponent fs.fraction where
  err := rfl
  cls := rfl
  fields := ⟨rfl, rfl, rfl⟩
  tags := described_tags fs clsNormal
  expUnb := unbiased_toInt (by omega) (by have := fs.exponent.isLt; omega)
  sig := sigNormal_toNat fs.fraction
  value64 := pack64Normal_toNat fs.sign fs.exponent.toNat fs.fraction

/-! ### The statement -/

/-- `ROUTE` ends the transaction with whatever record the stage it runs ends it with. -/
theorem exec_route_of_ended {e : ExpField} {st : State} {r : Record}
    (h : routeStage e.toNat st = .ended (st.finish r)) : exec (.route e) st = .next (st.finish r) := by
  simp only [exec, execRoute, h, state_ended]

/-- Settles O14: the three cases of `routeStage`, the numerator of the parsed fraction being the fraction field. -/
theorem routePerformsTheSelectedCase : Obligations.RoutePerformsTheSelectedCase := by
  unfold Obligations.RoutePerformsTheSelectedCase
  rintro e st rfl hsign hfrac
  have hcases := routeStage_cases st.work.fields.exponent.toNat st
  rw [hsign, fracNumerator_eq hfrac] at hcases
  obtain ⟨hspecial, hends⟩ | ⟨hzero, hends⟩ | ⟨hzero, hspecial, hends⟩ := hcases
  case inl =>
    have hexp : st.work.fields.exponent = 0xFF#8 := BitVec.eq_of_toNat_eq hspecial
    exact ⟨_, _, exec_route_of_ended hends, finish_delivers st _, fun _ => driveSpecial_isSpecialRecord hexp,
      fun h => absurd h (by omega), fun _ h => absurd hspecial h⟩
  case inr.inl =>
    have hexp : st.work.fields.exponent = 0x00#8 := BitVec.eq_of_toNat_eq hzero
    exact ⟨_, _, exec_route_of_ended hends, finish_delivers st _, fun h => absurd h (by omega),
      fun _ => driveSubnormal_isSubnormalRecord hexp, fun h => absurd hzero h⟩
  case inr.inr =>
    exact ⟨_, _, exec_route_of_ended hends, finish_delivers st _, fun h => absurd h hspecial, fun h => absurd h hzero,
      fun _ _ => driveNormal_isNormalRecord hzero hspecial⟩

end Sys2Proof

/-! SUPPORT. The tags of every row's record (R143), the one record of a transaction, and the proof of O28. -/

namespace Sys2Proof

open Machine

/-- A transaction word has one record. -/
theorem transactionRecord_unique {w : T38} {r r' : Record} (h : TransactionRecord w r) (h' : TransactionRecord w r') :
    r = r' := by
  obtain ⟨t, hexec, hdelivers⟩ := h State.reset
  obtain ⟨t', hexec', hdelivers'⟩ := h' State.reset
  obtain rfl : t = t' := by simpa [hexec] using hexec'
  exact delivers_unique hdelivers hdelivers'

/-- The record of a transaction is that of the row its word selects. -/
theorem eq_record_of_transactionRecord {len : Len} {s : SignField} {e : ExpField} {f : FracField} {r : Record}
    (h : TransactionRecord (t38Of len (w32Of s e f)) r) : r = (classOf (t38Of len (w32Of s e f))).record s e f :=
  transactionRecord_unique h (transactionRecord_t38Of len s e f)

theorem classOf_eq_invlen_iff (len : Len) (s : SignField) (e : ExpField) (f : FracField) :
    classOf (t38Of len (w32Of s e f)) = .invlen ↔ len ≠ 32#6 := by
  rw [classOf_eq_tests]
  split_ifs with hlen <;> simp [hlen]

section
variable (op : ClassOp) (s : SignField) (e : ExpField) (f : FracField)

theorem ClassOp.record_cls_eq_none_iff : (op.record s e f).cls = 3#2 ↔ op = .invlen := by
  rw [show (op.record s e f).cls = op.classAndError.1 from congrArg Prod.fst (op.record_cls_err s e f)]
  cases op <;> decide

theorem ClassOp.record_fracZero_iff : (op.record s e f).fracZero = true ↔ op ≠ .invlen ∧ f.toNat = 0 := by
  have hfracZero : (op.record s e f).fracZero = (decide (op ≠ .invlen) && decide (f.toNat = 0)) := by
    cases op <;> rfl
  simp [hfracZero]

/-- R143: three of the tags follow from the class and the first tag, in every row, that of `InvalidLength` included. -/
theorem ClassOp.record_tags :
    (op.record s e f).isZero = (decide ((op.record s e f).cls = 0#2) && (op.record s e f).fracZero) ∧
    (op.record s e f).isInf = (decide ((op.record s e f).cls = 2#2) && (op.record s e f).fracZero) ∧
    (op.record s e f).isNan = (decide ((op.record s e f).cls = 2#2) && !(op.record s e f).fracZero) := by
  cases op <;> exact ⟨rfl, rfl, rfl⟩

end

/-- Two of R143's three conditions never hold together. -/
theorem count_tags_le_one (cls : BitVec 2) (z : Bool) :
    [decide (cls = 0#2) && z, decide (cls = 2#2) && z, decide (cls = 2#2) && !z].count true ≤ 1 := by
  revert cls z
  decide

/-- Settles O28: the record is that of the selected row, whose tags follow from its class and its fraction. -/
theorem tagsFollowClassAndFraction : Obligations.TagsFollowClassAndFraction := by
  unfold Obligations.TagsFollowClassAndFraction
  intro len s e f r hr
  obtain rfl := eq_record_of_transactionRecord hr
  generalize hop : classOf (t38Of len (w32Of s e f)) = op
  have hlen : op ≠ .invlen ↔ len = 32#6 := by rw [← hop, Ne, classOf_eq_invlen_iff, not_not]
  have hfracZero := op.record_fracZero_iff s e f
  obtain ⟨hisZero, hisInf, hisNan⟩ := op.record_tags s e f
  refine ⟨by rw [hfracZero, hlen], by simp [hisZero], by simp [hisInf], by simp [hisNan], ?atMostOne, ?noneWithoutClass⟩
  case atMostOne =>
    rw [hisZero, hisInf, hisNan]
    exact count_tags_le_one _ _
  case noneWithoutClass =>
    intro hcls
    have hinvlen : op = .invlen := (op.record_cls_eq_none_iff s e f).mp hcls
    rw [hinvlen]
    exact ⟨rfl, rfl, rfl, rfl⟩

end Sys2Proof

/-! SUPPORT. The error code of every row's record (R170, R178), and the proof of O29. -/

namespace Sys2Proof

open Machine

/-- Only a full length reaches the special row, and in it the subnormal test, made first, takes another exponent (R75). -/
theorem classOf_eq_spec_iff (len : Len) (s : SignField) (e : ExpField) (f : FracField) :
    classOf (t38Of len (w32Of s e f)) = .spec ↔ len = 32#6 ∧ e = 0xFF#8 := by
  rw [classOf_eq_tests, show e = 0xFF#8 ↔ e.toNat = 255 by bv_omega]
  split_ifs with hlen hzero hspecial
  · simp [hlen]
  · simp [hzero]
  · simp [not_not.mp hlen, hspecial]
  · simp [hspecial]

/-- R170: each error belongs to one row, and the two other rows report none. -/
theorem ClassOp.record_err_iff (op : ClassOp) (s : SignField) (e : ExpField) (f : FracField) :
    ((op.record s e f).err = 1#2 ↔ op = .invlen) ∧ ((op.record s e f).err = 2#2 ↔ op = .spec) ∧
    ((op.record s e f).err = 0#2 ↔ op ≠ .invlen ∧ op ≠ .spec) := by
  rw [show (op.record s e f).err = op.classAndError.2 from congrArg Prod.snd (op.record_cls_err s e f)]
  cases op <;> decide

/-- Settles O29: the code is that of the selected row, and the ordered tests reach the special row only with a full length. -/
theorem invalidLengthHasPriority : Obligations.InvalidLengthHasPriority := by
  unfold Obligations.InvalidLengthHasPriority
  intro len s e f
  have hinvlen := classOf_eq_invlen_iff len s e f
  have hspec := classOf_eq_spec_iff len s e f
  obtain ⟨herr1, herr2, herr0⟩ := (classOf (t38Of len (w32Of s e f))).record_err_iff s e f
  refine ⟨_, transactionRecord_t38Of len s e f, herr1.trans hinvlen, herr2.trans hspec, herr0.trans ?noError⟩
  case noError =>
    rw [Ne, Ne, hinvlen, hspec]
    tauto

end Sys2Proof

/-! SUPPORT. The two operations that raise an error end with the record it forces (R181, R182): the proofs of O18 and O19. -/

namespace Sys2Proof

open Machine

/-- Settles O18: `DEC.SPEC` raises `SpecialExponent`, which keeps what describes the word and drives the sentinel. -/
theorem specialTransactionDeliversSentinel : Obligations.SpecialTransactionDeliversSentinel := by
  unfold Obligations.SpecialTransactionDeliversSentinel
  intro s f st
  exact ⟨_, _, rfl, raise_delivers st _,
    driveSpecial_isSpecialRecord (fs := { sign := s, exponent := 0xFF#8, fraction := f }) rfl⟩

/-- Settles O19: `DEC.INVLEN` raises `InvalidLength`, whose record does not read the word. -/
theorem invalidLengthTransactionDeliversZeros : Obligations.InvalidLengthTransactionDeliversZeros := by
  unfold Obligations.InvalidLengthTransactionDeliversZeros
  intro len bits st _
  exact ⟨_, _, rfl, raise_delivers st _, invalidLength_isInvalidLengthRecord⟩

end Sys2Proof

/-! SUPPORT. Decoding and encoding undo each other (R70 to R82): the proofs of O2, O3 and O1. -/

namespace Sys2Proof

open Machine

/-! ### Words as their fields -/

theorem exists_eq_w32Of (w : W32) : ∃ s e f, w = w32Of s e f := ⟨_, _, _, (w32Of_fields w).symm⟩

theorem exists_eq_t38Of_w32Of (w : T38) : ∃ len s e f, w = t38Of len (w32Of s e f) :=
  ⟨t38Len w, w32Sign (t38Bits w), w32Exp (t38Bits w), w32Frac (t38Bits w), by rw [w32Of_fields, t38Of_fields]⟩

/-! ### Transaction words -/

/-- The operands of the row that a transaction selects give its word again: what a row leaves out, its test fixes (R75). -/
theorem encode_toInstr_classOf (len : Len) (s : SignField) (e : ExpField) (f : FracField) :
    encode ((classOf (t38Of len (w32Of s e f))).toInstr len s e f) = .transaction (t38Of len (w32Of s e f)) := by
  rw [classOf_eq_tests]
  split_ifs with hlen hzero hspecial
  · rfl
  · obtain rfl : len = 32#6 := not_not.mp hlen
    obtain rfl : e = 0x00#8 := BitVec.eq_of_toNat_eq hzero
    rfl
  · obtain rfl : len = 32#6 := not_not.mp hlen
    obtain rfl : e = 0xFF#8 := BitVec.eq_of_toNat_eq hspecial
    rfl
  · obtain rfl : len = 32#6 := not_not.mp hlen
    rfl

/-- The ordered tests that lead to a row are what well-formedness asks of its operands (R75). -/
theorem wellFormed_toInstr_classOf (len : Len) (s : SignField) (e : ExpField) (f : FracField) :
    ((classOf (t38Of len (w32Of s e f))).toInstr len s e f).wellFormed = true := by
  rw [classOf_eq_tests]
  split_ifs with hlen hzero hspecial
  · simpa [ClassOp.toInstr, Instr.wellFormed, Config.fullLen] using hlen
  · rfl
  · rfl
  · simp [ClassOp.toInstr, Instr.wellFormed, Config.expSubnormal, Config.expSpecial, hzero, hspecial]

theorem decode_transaction_of_classOf {op : ClassOp} {len : Len} {s : SignField} {e : ExpField} {f : FracField}
    (h : classOf (t38Of len (w32Of s e f)) = op) :
    decode (.transaction (t38Of len (w32Of s e f))) = op.toInstr len s e f := by
  rw [decode_transaction_t38Of, h]

/-! ### The statements -/

/-- Settles O2, by cases on the rows: the word that is written passes exactly the tests of its own row. -/
theorem decodeOfEncodeIsIdentity : Obligations.DecodeOfEncodeIsIdentity := by
  unfold Obligations.DecodeOfEncodeIsIdentity
  intro i hwf
  cases i with
  | decSubn s f => exact decode_transaction_of_classOf (op := .subn) (by rw [classOf_eq_tests]; rfl)
  | decSpec s f => exact decode_transaction_of_classOf (op := .spec) (by rw [classOf_eq_tests]; rfl)
  | decNorm s e f =>
    obtain ⟨hzero, hspecial⟩ : e.toNat ≠ 0 ∧ e.toNat ≠ 255 := by
      simpa [Instr.wellFormed, Config.expSubnormal, Config.expSpecial] using hwf
    exact decode_transaction_of_classOf (op := .norm)
      (by rw [classOf_eq_tests, if_neg (by simp [Config.fullLen]), if_neg hzero, if_neg hspecial])
  | decInvlen len bits =>
    have hlen : len ≠ 32#6 := by simpa [Instr.wellFormed, Config.fullLen] using hwf
    obtain ⟨s, e, f, rfl⟩ := exists_eq_w32Of bits
    exact decode_transaction_of_classOf (op := .invlen) ((classOf_eq_invlen_iff len s e f).mpr hlen)
  | split s e f => simp [encode, decode]
  | parseInt => rfl
  | parseFrac => rfl
  | route e => simp [encode, decode]
  | decode len s e f => simp [encode, decode]

/-- Settles O3, format by format; for the transactions the row selected is the one whose tests the word passes. -/
theorem encodeOfDecodeIsIdentity : Obligations.EncodeOfDecodeIsIdentity := by
  unfold Obligations.EncodeOfDecodeIsIdentity
  refine ⟨?transaction, ?composite, ?splitter, ?parser, ?router⟩
  case transaction =>
    intro w
    obtain ⟨len, s, e, f, rfl⟩ := exists_eq_t38Of_w32Of w
    rw [decode_transaction_t38Of]
    exact ⟨encode_toInstr_classOf len s e f, wellFormed_toInstr_classOf len s e f⟩
  case composite =>
    intro w
    simp [decode, encode, w32Of_fields, t38Of_fields]
  case splitter =>
    intro w
    simp [decode, encode, w32Of_fields]
  case parser => decide
  case router => exact fun w => ⟨_, rfl, w32Exp_of 0#1 (w32Exp w) 0#23⟩

/-- Settles O1: the nine words are decoded. -/
theorem writtenWordsDecode : Obligations.WrittenWordsDecode := by
  unfold Obligations.WrittenWordsDecode
  decide

end Sys2Proof

/-! SUPPORT. The text of a field and the closed forms of the two parser folds (R10, R111, R113): the proofs of O6, O9,
O10, O12 and O13. -/

namespace Sys2Proof

open Machine

/-! ### The text of a word -/

theorem bitString_getElem {n : Nat} (v : BitVec n) {i : Nat} (h : i < (bitString v).length) :
    (bitString v)[i] = v.getMsbD i := by
  simp [bitString]

/-- The text of joined fields is their texts joined. -/
theorem bitString_append {n m : Nat} (x : BitVec n) (y : BitVec m) :
    bitString (x ++ y) = bitString x ++ bitString y := by
  apply List.ext_getElem
  · simp
  · intro i _ _
    simp only [List.getElem_append, bitString_getElem, bitString_length, BitVec.getMsbD_append, dite_eq_ite]
    by_cases hi : i < n
    · simp [hi, Nat.not_le.mpr hi]
    · simp [hi, Nat.not_lt.mp hi]

/-- Settles O6: a word is its three fields joined, and character `i` is bit 31 - `i` as R10 counts them. -/
theorem wordTextIsSignExponentFraction : Obligations.WordTextIsSignExponentFraction := by
  unfold Obligations.WordTextIsSignExponentFraction
  intro w
  constructor
  · rw [← bitString_append, ← bitString_append, ← w32Of, w32Of_fields]
  · intro i h
    have hi : i < 32 := by simpa using h
    rw [bitString_getElem, BitVec.getMsbD_eq_getLsbD]
    simp [hi]

/-! ### The folds over a field -/

theorem digit_eq_toNat (c : Bool) : digit c = c.toNat := by
  cases c <;> rfl

/-- R111: each further character doubles the value and adds its digit, which is how a field grows by a bit. -/
theorem parseIntFold_bitString {n : Nat} (v : BitVec n) : parseIntFold (bitString v) = v.toNat := by
  induction v using BitVec.concat_induction with
  | nil => rfl
  | concat u b ih =>
    rw [bitString_concat, parseIntFold_concat, ih, digit_eq_toNat, BitVec.toNat_concat]

/-- R113: the character at distance `n + 1` from the point adds its digit over `2 ^ (n + 1)`. -/
theorem parseFracFold_bitString {n : Nat} (v : BitVec n) :
    (parseFracFold (bitString v)).toRat = v.toNat / 2 ^ n := by
  induction v using BitVec.concat_induction with
  | nil => simp [bitString, parseFracFold, DyadicRat.toRat]
  | concat u b ih =>
    rw [bitString_concat, parseFracFold_concat, ih, digit_eq_toNat, bitString_length, BitVec.toNat_concat]
    push_cast
    rw [pow_succ]
    field_simp

theorem toNat_div_two_pow_lt_one {n : Nat} (v : BitVec n) : (v.toNat : ℚ) / 2 ^ n < 1 := by
  rw [div_lt_one (by positivity)]
  exact_mod_cast v.isLt

/-- Settles O9: the fold is the unsigned value, which the width bounds. -/
theorem integerFoldIsUnsignedValue : Obligations.IntegerFoldIsUnsignedValue := by
  unfold Obligations.IntegerFoldIsUnsignedValue
  intro n v
  rw [parseIntFold_bitString]
  exact ⟨rfl, v.isLt⟩

/-- Settles O10: the fold is the unsigned value over `2 ^ n`, which the width bounds. -/
theorem fractionalFoldIsUnsignedOverPower : Obligations.FractionalFoldIsUnsignedOverPower := by
  unfold Obligations.FractionalFoldIsUnsignedOverPower
  intro n v
  rw [parseFracFold_bitString]
  exact ⟨rfl, by positivity, toNat_div_two_pow_lt_one v⟩

/-! ### The two operations -/

theorem exec_parseInt (st : State) : exec .parseInt st = .next { st with work := { st.work with
    signVal := st.work.fields.sign.toNat, expVal := st.work.fields.exponent.toNat } } := by
  rw [← parseIntFold_bitString st.work.fields.sign, ← parseIntFold_bitString st.work.fields.exponent]
  rfl

theorem exec_parseFrac (st : State) : exec .parseFrac st = .next { st with work := { st.work with
    fraction := parseFracFold (bitString st.work.fields.fraction) } } := rfl

/-- Settles O12: `PARSE.INT` writes the two folds, which are the unsigned values. -/
theorem parseIntReadsSignAndExponent : Obligations.ParseIntReadsSignAndExponent := by
  unfold Obligations.ParseIntReadsSignAndExponent
  exact exec_parseInt

/-- Settles O13: `PARSE.FRAC` writes the fold of the 23 characters. -/
theorem parseFracReadsFraction : Obligations.ParseFracReadsFraction := by
  unfold Obligations.ParseFracReadsFraction
  exact fun st => ⟨_, exec_parseFrac st, parseFracFold_bitString st.work.fields.fraction⟩

end Sys2Proof

/-! SUPPORT. The stages run in their order end a transaction with the record of the row its word selects (R137): the proofs
of O15, O16, O17, O20, O21, O22, O30, O31 and O32. -/

namespace Sys2Proof

open Machine

/-! ### The router after the parsers -/

/-- The locals once the three parser instances have read the split fields (R110, R137). -/
def parsedWork (fs : SplitFields) : Work :=
  { fields := fs, signVal := fs.sign.toNat, expVal := fs.exponent.toNat, fraction := parseFracFold (bitString fs.fraction) }

/-- R132: on the parsed values of its fields the router performs the row that the class map selects for their word. -/
theorem routeStage_parsedWork (fs : SplitFields) (st : State) :
    routeStage fs.exponent.toNat { st with work := parsedWork fs } = .ended (st.finish
      ((classOf (t38Of 32#6 (w32Of fs.sign fs.exponent fs.fraction))).record fs.sign fs.exponent fs.fraction)) := by
  have hfrac : fracNumerator (parsedWork fs).fraction = fs.fraction.toNat :=
    fracNumerator_eq (parseFracFold_bitString fs.fraction)
  have hcases := routeStage_cases fs.exponent.toNat { st with work := parsedWork fs }
  rw [hfrac, finish_withWork, finish_withWork, finish_withWork] at hcases
  rw [classOf_eq_tests, if_neg (by simp)]
  obtain ⟨hspecial, hends⟩ | ⟨hzero, hends⟩ | ⟨hzero, hspecial, hends⟩ := hcases
  case inl =>
    have hexp : fs.exponent = 0xFF#8 := BitVec.eq_of_toNat_eq hspecial
    rw [hends, if_neg (by omega), if_pos hspecial, ClassOp.record, ← hexp]
    rfl
  case inr.inl =>
    have hexp : fs.exponent = 0x00#8 := BitVec.eq_of_toNat_eq hzero
    rw [hends, if_pos hzero, ClassOp.record, ← hexp]
    rfl
  case inr.inr =>
    rw [hends, if_neg hzero, if_neg hspecial]
    rfl

/-- R137: `DECODE` through its stages and both folds ends with the record of the row that the class map selects. -/
theorem exec_decode (len : Len) (s : SignField) (e : ExpField) (f : FracField) (st : State) :
    exec (.decode len s e f) st = .next (st.finish ((classOf (t38Of len (w32Of s e f))).record s e f)) := by
  obtain ⟨rfl, hgoes⟩ | ⟨hlen, hends⟩ := splitStage_cases len { sign := s, exponent := e, fraction := f } st
  · have hroute := routeStage_parsedWork { sign := s, exponent := e, fraction := f } st
    simp only [parsedWork] at hroute
    simp only [exec, execDecode, decodeStages, hgoes, andThen_goesOn, parseIntStage, parseFracStage,
      parseIntFold_bitString, hroute, state_ended]
  · rw [(classOf_eq_invlen_iff len s e f).mpr hlen]
    simp only [exec, execDecode, decodeStages, hends, andThen_ended, state_ended, ClassOp.record]

/-! ### Whole transactions, whole or stage by stage -/

theorem exec_transaction (len : Len) (s : SignField) (e : ExpField) (f : FracField) (st : State) :
    exec (decode (.transaction (t38Of len (w32Of s e f)))) st =
      .next (st.finish ((classOf (t38Of len (w32Of s e f))).record s e f)) := by
  rw [decode_transaction_t38Of, exec_classOp]

theorem decode_composite_t38Of (len : Len) (s : SignField) (e : ExpField) (f : FracField) :
    decode (.composite (t38Of len (w32Of s e f))) = .decode len s e f := by
  simp [decode]

theorem exec_composite (len : Len) (s : SignField) (e : ExpField) (f : FracField) (st : State) :
    exec (decode (.composite (t38Of len (w32Of s e f)))) st =
      .next (st.finish ((classOf (t38Of len (w32Of s e f))).record s e f)) := by
  rw [decode_composite_t38Of, exec_decode]

/-- Settles O21: both end with the record of the row that the class map selects. -/
theorem decodeEqualsSelectedOperation : Obligations.DecodeEqualsSelectedOperation := by
  unfold Obligations.DecodeEqualsSelectedOperation
  intro w st
  obtain ⟨len, s, e, f, rfl⟩ := exists_eq_t38Of_w32Of w
  rw [exec_composite, exec_transaction]

/-- Every transaction word ends every transaction with one record, whichever way it is run. -/
theorem exists_exec_eq_finish (w : T38) : ∃ r, ∀ st : State,
    exec (decode (.transaction w)) st = .next (st.finish r) ∧ exec (decode (.composite w)) st = .next (st.finish r) := by
  obtain ⟨len, s, e, f, rfl⟩ := exists_eq_t38Of_w32Of w
  exact ⟨_, fun st => ⟨exec_transaction len s e f st, exec_composite len s e f st⟩⟩

/-- Settles O31: each of the two transactions ends with the one record of the word, and delivers no other. -/
theorem recordIgnoresHistory : Obligations.RecordIgnoresHistory := by
  unfold Obligations.RecordIgnoresHistory
  intro w s s' t t' r r' hexec hdelivers hexec' hdelivers'
  obtain ⟨r₀, hends⟩ := exists_exec_eq_finish w
  obtain rfl : s.finish r₀ = t := by simpa [(hends s).1] using hexec
  obtain rfl : s'.finish r₀ = t' := by simpa [(hends s').2] using hexec'
  exact (delivers_unique hdelivers (finish_delivers s r₀)).trans (delivers_unique (finish_delivers s' r₀) hdelivers')

/-- Settles O32: the record is the word's alone, and the end of the transaction drops the locals. -/
theorem leftoverLocalsHaveNoEffect : Obligations.LeftoverLocalsHaveNoEffect := by
  unfold Obligations.LeftoverLocalsHaveNoEffect
  intro w k s
  obtain ⟨r, hends⟩ := exists_exec_eq_finish w
  simp only [hends, finish_withWork, and_self]

/-- R27, R181: on a wrong length neither way of running the transaction reads its bits. -/
theorem exec_of_wrongLength {len : Len} (hlen : len ≠ 32#6) (b : W32) (st : State) :
    exec (decode (.transaction (t38Of len b))) st = .next (st.finish Record.invalidLength) ∧
    exec (decode (.composite (t38Of len b))) st = .next (st.finish Record.invalidLength) := by
  obtain ⟨s, e, f, rfl⟩ := exists_eq_w32Of b
  rw [exec_transaction, exec_composite, (classOf_eq_invlen_iff len s e f).mpr hlen]
  exact ⟨rfl, rfl⟩

/-- Settles O30: every wrong length ends with the record of `InvalidLength`, which reads nothing. -/
theorem unsuppliedBitsNeverReachAnOutput : Obligations.UnsuppliedBitsNeverReachAnOutput := by
  unfold Obligations.UnsuppliedBitsNeverReachAnOutput
  intro len len' b b' st hlen hlen'
  obtain ⟨htransaction, hcomposite⟩ := exec_of_wrongLength hlen b st
  obtain ⟨htransaction', hcomposite'⟩ := exec_of_wrongLength hlen' b' st
  exact ⟨htransaction.trans htransaction'.symm, hcomposite.trans hcomposite'.symm⟩

/-- Settles O22: with a full length the three stages leave the parsed values on which `ROUTE` performs the selected row;
with any other length `SPLIT` has already ended the transaction. -/
theorem stagesComposeToDecode : Obligations.StagesComposeToDecode := by
  unfold Obligations.StagesComposeToDecode
  intro w st
  refine ⟨?fullLength, ?wrongLength⟩
  case fullLength =>
    intro hlen
    refine ⟨_, _, _, exec_splitter_of_fullLength w hlen, exec_parseInt _, exec_parseFrac _, ?_⟩
    obtain ⟨s, e, f, rfl⟩ := exists_eq_w32Of w
    rw [hlen, ← t38Of, exec_composite]
    simp only [decode, w32Sign_of, w32Exp_of, w32Frac_of]
    exact exec_route_of_ended (st := { st with work := parsedWork { sign := s, exponent := e, fraction := f } })
      (routeStage_parsedWork { sign := s, exponent := e, fraction := f } st)
  case wrongLength =>
    intro hlen
    rw [exec_splitter_of_wrongLength w hlen, ← t38Of, (exec_of_wrongLength hlen w st).2]

/-! ### The record of each case -/

/-- R133, R140, R141: what the record of `DEC.SUBN` holds. -/
theorem ClassOp.record_subn (s : SignField) (e : ExpField) (f : FracField) :
    IsSubnormalRecord (ClassOp.subn.record s e f) s f :=
  driveSubnormal_isSubnormalRecord (fs := { sign := s, exponent := 0x00#8, fraction := f }) rfl

/-- R135, R182: what the record of `DEC.SPEC` holds. -/
theorem ClassOp.record_spec (s : SignField) (e : ExpField) (f : FracField) :
    IsSpecialRecord (ClassOp.spec.record s e f) s f :=
  driveSpecial_isSpecialRecord (fs := { sign := s, exponent := 0xFF#8, fraction := f }) rfl

/-- R134, R139: what the record of `DEC.NORM` holds. -/
theorem ClassOp.record_norm (s : SignField) {e : ExpField} (f : FracField) (hzero : e.toNat ≠ 0)
    (hspecial : e.toNat ≠ 255) : IsNormalRecord (ClassOp.norm.record s e f) s e f :=
  driveNormal_isNormalRecord (fs := { sign := s, exponent := e, fraction := f }) hzero hspecial

/-- Settles O16: `DEC.SUBN` ends with the record of its row. -/
theorem subnormalTransactionDelivers : Obligations.SubnormalTransactionDelivers := by
  unfold Obligations.SubnormalTransactionDelivers
  exact fun s f st => ⟨_, _, rfl, finish_delivers st _, ClassOp.record_subn s 0x00#8 f⟩

/-- Settles O17: `DEC.NORM` ends with the record of its row. -/
theorem normalTransactionDelivers : Obligations.NormalTransactionDelivers := by
  unfold Obligations.NormalTransactionDelivers
  exact fun s e f st hzero hspecial => ⟨_, _, rfl, finish_delivers st _, ClassOp.record_norm s f hzero hspecial⟩

/-- Settles O20: `DECODE` ends with the record of the row selected, and the ordered tests select the row of each case. -/
theorem decodeDeliversTheSelectedRecord : Obligations.DecodeDeliversTheSelectedRecord := by
  unfold Obligations.DecodeDeliversTheSelectedRecord
  intro len s e f st
  refine ⟨_, _, exec_decode len s e f st, finish_delivers st _, ?invlen, ?subn, ?spec, ?norm⟩ <;>
    rw [classOf_eq_tests]
  case invlen =>
    intro hlen
    rw [if_pos hlen]
    exact invalidLength_isInvalidLengthRecord
  case subn =>
    rintro rfl rfl
    exact ClassOp.record_subn s 0x00#8 f
  case spec =>
    rintro rfl rfl
    exact ClassOp.record_spec s 0xFF#8 f
  case norm =>
    rintro rfl hzero hspecial
    have hzero : e.toNat ≠ 0 := by bv_omega
    have hspecial : e.toNat ≠ 255 := by bv_omega
    rw [if_neg (by simp), if_neg hzero, if_neg hspecial]
    exact ClassOp.record_norm s f hzero hspecial

/-- Settles O15: the record of each of the three cases of `routeStage` carries the codes of its case. -/
theorem routeClassFollowsExponentAlone : Obligations.RouteClassFollowsExponentAlone := by
  unfold Obligations.RouteClassFollowsExponentAlone
  intro e st
  obtain ⟨hspecial, hends⟩ | ⟨hzero, hends⟩ | ⟨hzero, hspecial, hends⟩ := routeStage_cases e.toNat st <;>
    refine ⟨_, _, exec_route_of_ended hends, finish_delivers st _, ?_⟩
  · obtain rfl : e = 0xFF#8 := BitVec.eq_of_toNat_eq hspecial
    rfl
  · obtain rfl : e = 0x00#8 := BitVec.eq_of_toNat_eq hzero
    rfl
  · rw [if_neg (by bv_omega), if_neg (by bv_omega)]
    rfl

end Sys2Proof

/-! SUPPORT. Every instruction writes locals in range or ends with a lawful record, so every step keeps the invariant
(R83, R110, R180): the proofs of O42, O43 and O44. -/

namespace Sys2Proof

open Machine

/-! ### Lawful records -/

theorem pack64Normal_expField (sv v n : Nat) : expField64 (pack64Normal sv v n) = BitVec.ofNat 11 (v + 896) := by
  rw [pack64Normal, binary64Of, expField64_append, show v + Config.bias64 - Config.bias = v + 896 by
    simp only [Config.bias64, Config.bias]; omega]

theorem pack64Zero_expField (sv : Nat) : expField64 (pack64Zero sv) = 0#11 := by
  rw [pack64Zero, binary64Of, expField64_append]

theorem pack64Subnormal_expField (sv n : Nat) :
    expField64 (pack64Subnormal sv n) = BitVec.ofNat 11 (n.log2 + 874) := by
  rw [pack64Subnormal, binary64Of, expField64_append, show n.log2 + Config.bias64 - 149 = n.log2 + 874 by
    simp only [Config.bias64]; omega]

/-- An exponent below all ones is not the field of an infinity. -/
theorem ofNat11_ne_allOnes {n : Nat} (h : n < 2047) : BitVec.ofNat 11 n ≠ 0x7FF#11 := by
  intro heq
  have hnat : n % 2 ^ 11 = 2047 := congrArg BitVec.toNat heq
  omega

/-- R139: re-biasing an 8-bit exponent stays below all ones. -/
theorem pack64Normal_expField_ne {v : Nat} (hv : v ≤ 255) (sv n : Nat) :
    expField64 (pack64Normal sv v n) ≠ 0x7FF#11 := by
  rw [pack64Normal_expField]
  exact ofNat11_ne_allOnes (by omega)

/-- R140, R141: a 23-bit fraction normalises to an exponent below all ones. -/
theorem pack64Denormal_expField_ne {n : Nat} (hn : n < 2 ^ 23) (sv : Nat) :
    expField64 (pack64Denormal sv n) ≠ 0x7FF#11 := by
  rw [pack64Denormal]
  split_ifs with hzero
  · rw [pack64Zero_expField]
    decide
  · have hlog : n.log2 < 23 := (Nat.log2_lt hzero).mpr hn
    rw [pack64Subnormal_expField]
    exact ofNat11_ne_allOnes (by omega)

/-- Without an error, and in a class that sets neither of the special tags, only the exponent field can be unlawful. -/
theorem lawful_of_noError {r : Record} (herr : r.err = 0#2) (hcls : r.cls = 0#2 ∨ r.cls = 1#2) (hinf : r.isInf = false)
    (hnan : r.isNan = false) (hexp : expField64 r.value64 ≠ 0x7FF#11) : r.lawful = true := by
  rcases hcls with hcls | hcls <;> simp [Record.lawful, herr, hcls, hinf, hnan, hexp]

theorem driveSubnormal_lawful (fs : SplitFields) (sv : Nat) {n : Nat} (hn : n < 2 ^ 23) :
    ((Record.described fs clsSubnormal).driveSubnormal sv n).lawful = true :=
  lawful_of_noError rfl (.inl rfl) rfl rfl (pack64Denormal_expField_ne hn sv)

theorem driveNormal_lawful (fs : SplitFields) (sv : Nat) {v : Nat} (hv : v ≤ 255) (n : Nat) :
    ((Record.described fs clsNormal).driveNormal sv v n).lawful = true :=
  lawful_of_noError rfl (.inr rfl) rfl rfl (pack64Normal_expField_ne hv sv n)

/-- R182: the special case forces its numeric outputs, and the infinity and NaN tags exclude each other. -/
theorem driveSpecial_lawful (fs : SplitFields) : (Record.described fs clsSpecial).driveSpecial.lawful = true := by
  have hcls : (Record.described fs clsSpecial).cls = 2#2 := rfl
  have hisZero : (Record.described fs clsSpecial).isZero = false := rfl
  obtain ⟨-, -, hisInf, hisNan⟩ := described_tags fs clsSpecial
  have hexp : expField64 0#64 ≠ 0x7FF#11 := by decide
  by_cases hfrac : fs.fraction = 0#23 <;>
    simp [Record.lawful, Record.driveSpecial, hcls, hisZero, hisInf, hisNan, errSpecialExponent, sentinel, hexp, hfrac]

theorem invalidLength_lawful : Record.invalidLength.lawful = true := by decide

theorem ClassOp.record_lawful (op : ClassOp) (s : SignField) (e : ExpField) (f : FracField) :
    (op.record s e f).lawful = true := by
  cases op with
  | subn => exact driveSubnormal_lawful _ _ f.isLt
  | spec => exact driveSpecial_lawful _
  | norm => exact driveNormal_lawful _ _ (by have := e.isLt; omega) _
  | invlen => exact invalidLength_lawful

/-! ### Parsed values in range -/

theorem inRange_iff (k : Work) :
    k.inRange = true ↔ k.signVal ≤ 1 ∧ k.expVal ≤ 255 ∧ k.fraction.num < 2 ^ k.fraction.places := by
  simp [Work.inRange, and_assoc]

/-- R110: the parsed fraction is below 1. -/
theorem parseFracFold_bitString_num_lt {n : Nat} (v : BitVec n) :
    (parseFracFold (bitString v)).num < 2 ^ (parseFracFold (bitString v)).places := by
  have hlt : (parseFracFold (bitString v)).toRat < 1 := by
    rw [parseFracFold_bitString]
    exact toNat_div_two_pow_lt_one v
  rw [DyadicRat.toRat, div_lt_one (by positivity)] at hlt
  exact_mod_cast hlt

/-! ### Every instruction -/

/-- The router ends with a lawful record on every 8-bit exponent, whatever fields the locals hold. -/
theorem routeStage_ends_lawful {v : Nat} (hv : v ≤ 255) {st : State} (hwork : st.work.inRange = true) :
    ∃ r : Record, r.lawful = true ∧ routeStage v st = .ended (st.finish r) := by
  obtain ⟨-, -, hfrac⟩ := (inRange_iff st.work).mp hwork
  obtain ⟨-, hends⟩ | ⟨-, hends⟩ | ⟨-, -, hends⟩ := routeStage_cases v st
  · exact ⟨_, driveSpecial_lawful _, hends⟩
  · exact ⟨_, driveSubnormal_lawful _ _ (fracNumerator_lt hfrac), hends⟩
  · exact ⟨_, driveNormal_lawful _ _ hv _, hends⟩

/-- From locals in range an instruction writes locals in range, or ends a transaction with a lawful record. -/
theorem exec_lawful_cases (i : Instr) {st : State} (hwork : st.work.inRange = true) :
    (∃ k : Work, k.inRange = true ∧ exec i st = .next { st with work := k }) ∨
    (∃ r : Record, r.lawful = true ∧ exec i st = .next (st.finish r)) := by
  obtain ⟨hsign, hexp, hfrac⟩ := (inRange_iff st.work).mp hwork
  cases i with
  | decSubn s f => exact .inr ⟨_, ClassOp.record_lawful .subn s 0x00#8 f, rfl⟩
  | decSpec s f => exact .inr ⟨_, ClassOp.record_lawful .spec s 0xFF#8 f, rfl⟩
  | decNorm s e f => exact .inr ⟨_, ClassOp.record_lawful .norm s e f, rfl⟩
  | decInvlen len bits => exact .inr ⟨_, invalidLength_lawful, rfl⟩
  | split s e f =>
    obtain ⟨-, hgoes⟩ | ⟨-, hends⟩ := splitStage_cases st.inp.len { sign := s, exponent := e, fraction := f } st
    · refine .inl ⟨{ st.work with fields := { sign := s, exponent := e, fraction := f } }, ?_, ?_⟩
      · exact (inRange_iff _).mpr ⟨hsign, hexp, hfrac⟩
      · rw [exec, execSplit, hgoes, state_goesOn]
    · exact .inr ⟨_, invalidLength_lawful, by rw [exec, execSplit, hends, state_ended]⟩
  | parseInt =>
    have hsign : st.work.fields.sign.toNat ≤ 1 := by have := st.work.fields.sign.isLt; omega
    have hexp : st.work.fields.exponent.toNat ≤ 255 := by have := st.work.fields.exponent.isLt; omega
    refine .inl ⟨_, ?_, exec_parseInt st⟩
    exact (inRange_iff _).mpr ⟨hsign, hexp, hfrac⟩
  | parseFrac =>
    refine .inl ⟨_, ?_, exec_parseFrac st⟩
    exact (inRange_iff _).mpr ⟨hsign, hexp, parseFracFold_bitString_num_lt st.work.fields.fraction⟩
  | route e =>
    obtain ⟨r, hlawful, hends⟩ := routeStage_ends_lawful (v := e.toNat) (by have := e.isLt; omega) hwork
    exact .inr ⟨r, hlawful, exec_route_of_ended hends⟩
  | decode len s e f => exact .inr ⟨_, ClassOp.record_lawful _ s e f, exec_decode len s e f st⟩

/-! ### The invariant along an edge -/

theorem inv_iff (st : State) :
    st.inv = true ↔ st.work.inRange = true ∧ (st.outValid = true → st.out.lawful = true) ∧
      (∀ o ∈ st.pipe, ∀ r ∈ o, r.lawful = true) ∧ ∀ r ∈ st.delivered, r.lawful = true := by
  simp [State.inv, Bool.or_eq_true, and_assoc, imp_iff_not_or]

theorem workEmpty_inRange : Work.empty.inRange = true := by decide

theorem inv_withWork {st : State} (h : st.inv = true) {k : Work} (hk : k.inRange = true) :
    ({ st with work := k } : State).inv = true := by
  obtain ⟨-, hout, hpipe, hdelivered⟩ := (inv_iff st).mp h
  exact (inv_iff _).mpr ⟨hk, hout, hpipe, hdelivered⟩

theorem inv_drive {st : State} (h : st.inv = true) {o : Option Record} (ho : ∀ r ∈ o, r.lawful = true) :
    (st.drive o).inv = true := by
  obtain ⟨hwork, -, hpipe, hdelivered⟩ := (inv_iff st).mp h
  refine (inv_iff _).mpr ⟨by simpa using hwork, ?_, by simpa using hpipe, ?_⟩
  · cases o with
    | none => simp
    | some r => simpa using ho
  · rw [drive_delivered]
    intro r hr
    rcases List.mem_append.mp hr with hold | hnew
    · exact hdelivered r hold
    · exact ho r (by simpa using hnew)

theorem inv_edge {st : State} (h : st.inv = true) {o : Option Record} (ho : ∀ r ∈ o, r.lawful = true) :
    (st.edge o).inv = true := by
  obtain ⟨hwork, hout, hpipe, hdelivered⟩ := (inv_iff st).mp h
  obtain ⟨hcomesOut, hstays⟩ := shift_mem (pipe := st.pipe) (r := o)
  have hlawful (x : Option Record) (hx : x = o ∨ x ∈ st.pipe) : ∀ r ∈ x, r.lawful = true := by
    rcases hx with rfl | hmem
    · exact ho
    · exact hpipe x hmem
  have hshifted : ({ st with pipe := (shift st.pipe o).2 } : State).inv = true :=
    (inv_iff _).mpr ⟨hwork, hout, fun x hx => hlawful x (hstays x hx), hdelivered⟩
  exact inv_drive hshifted (hlawful _ hcomesOut)

theorem inv_finish {st : State} (h : st.inv = true) {r : Record} (hr : r.lawful = true) : (st.finish r).inv = true :=
  inv_edge (inv_withWork h workEmpty_inRange) (by simpa using hr)

theorem inv_resetEdge {st : State} (h : st.inv = true) : st.resetEdge.inv = true := by
  obtain ⟨-, hout, -, hdelivered⟩ := (inv_iff st).mp h
  have hemptied : ({ st with work := Work.empty, pipe := st.pipe.map fun _ => none } : State).inv = true :=
    (inv_iff _).mpr ⟨workEmpty_inRange, hout, by simp, hdelivered⟩
  exact inv_drive hemptied (by simp)

theorem inv_sample {st : State} (h : st.inv = true) : st.sample.inv = true := by
  simpa only [inv_iff, sample_work, sample_outValid, sample_out, sample_pipe, sample_delivered] using h

/-! ### The statements -/

/-- Every step answers, and keeps the invariant. -/
theorem exists_step_inv {st : State} (h : st.inv = true) : ∃ t, step st = .next t ∧ t.inv = true := by
  have hsample := inv_sample h
  obtain ⟨-, hstep⟩ | ⟨-, -, hstep⟩ | ⟨-, -, hstep⟩ := step_cases st
  case inl => exact ⟨_, hstep, inv_resetEdge hsample⟩
  case inr.inl =>
    obtain ⟨hwork, -⟩ := (inv_iff _).mp hsample
    obtain ⟨k, hk, hexec⟩ | ⟨r, hr, hexec⟩ := exec_lawful_cases (decode st.sample.inp.word) hwork
    · exact ⟨_, hstep.trans hexec, inv_withWork hsample hk⟩
    · exact ⟨_, hstep.trans hexec, inv_finish hsample hr⟩
  case inr.inr => exact ⟨_, hstep, inv_edge hsample (by simp)⟩

/-- Settles O43: each way a step can answer keeps the invariant. -/
theorem stepKeepsInvariant : Obligations.StepKeepsInvariant := by
  unfold Obligations.StepKeepsInvariant
  intro s t hinv hstep
  obtain ⟨u, hu, hkept⟩ := exists_step_inv hinv
  obtain rfl : u = t := by simpa [hu] using hstep
  exact hkept

/-- Settles O42: at reset the locals are zeros and there is no record. -/
theorem resetMeetsInvariant : Obligations.ResetMeetsInvariant := by
  unfold Obligations.ResetMeetsInvariant
  rw [inv_iff]
  exact ⟨workEmpty_inRange, by simp [State.reset], by simp [State.reset, Config.defaultLatency], by simp [State.reset]⟩

/-- Settles O44, by induction on the number of steps: every one of them answers and keeps the invariant. -/
theorem everyRunIsSafe : Obligations.EveryRunIsSafe := by
  unfold Obligations.EveryRunIsSafe
  intro k
  induction k with
  | zero =>
    intro s hinv
    obtain ⟨-, -, -, hdelivered⟩ := (inv_iff s).mp hinv
    exact ⟨s, rfl, by simpa using hdelivered⟩
  | succ k ih =>
    intro s hinv
    obtain ⟨u, hstep, hkept⟩ := exists_step_inv hinv
    obtain ⟨t, hrun, hlawful⟩ := ih u hkept
    exact ⟨t, (run_succ Sys2Proof.core k s u hstep).trans hrun, hlawful⟩

end Sys2Proof

/-! SUPPORT. What a step runs and what it does to the pipeline (R28, R37, R55, R201): the proofs of O33 to O36, O38, O39 and
O41. -/

namespace Sys2Proof

open Machine

/-! ### The sample of a step -/

theorem sample_of_nil {s : State} (h : s.upstream = []) : s.sample = { s with inp := InPorts.quiet } := by
  simp [State.sample, h]

theorem sample_of_cons {s : State} {p : InPorts} {rest : List InPorts} (h : s.upstream = p :: rest) :
    s.sample = { s with inp := p, upstream := rest } := by
  simp [State.sample, h]

theorem resetAsserted_iff (s : State) : s.resetAsserted = true ↔ s.inp.rst = true ∧ s.pipe ≠ [] := by
  simp [State.resetAsserted]

theorem resetAsserted_eq_false_iff (s : State) : s.resetAsserted = false ↔ s.inp.rst = false ∨ s.pipe = [] := by
  rw [← Bool.not_eq_true, resetAsserted_iff]
  simp [imp_iff_not_or]

/-- The word that a sample presents is the one it was made for. -/
theorem word_ofWord (w : OpWord) : (InPorts.ofWord w).word = w := by
  cases w <;> simp [InPorts.ofWord, InPorts.word, t38Of_fields]

theorem valid_ofWord (w : OpWord) : (InPorts.ofWord w).valid = true := by
  cases w <;> rfl

theorem rst_ofWord (w : OpWord) : (InPorts.ofWord w).rst = false := by
  cases w <;> rfl

/-! ### The three ways to step -/

theorem step_of_presented {s : State} {p : InPorts} {rest : List InPorts} (hup : s.upstream = p :: rest)
    (hvalid : p.valid = true) (hreset : p.rst = false ∨ s.pipe = []) :
    step s = exec (decode p.word) { s with inp := p, upstream := rest } := by
  have hnoReset : s.sample.resetAsserted = false := by
    rw [resetAsserted_eq_false_iff, sample_of_cons hup]
    exact hreset
  rw [step, stepSampled, hnoReset, sample_of_cons hup]
  simp [hvalid]

theorem step_of_quiet {s : State} (hvalid : s.sample.inp.valid = false)
    (hreset : s.sample.inp.rst = false ∨ s.pipe = []) : step s = .next s.sample.idleEdge := by
  have hnoReset : s.sample.resetAsserted = false := by
    rw [resetAsserted_eq_false_iff, sample_pipe]
    exact hreset
  simp [step, stepSampled, hnoReset, hvalid]

theorem step_of_exhausted {s : State} (hup : s.upstream = []) : step s = .next s.sample.idleEdge := by
  have hquiet : s.sample.inp = InPorts.quiet := by rw [sample_of_nil hup]
  exact step_of_quiet (by rw [hquiet]; rfl) (.inl (by rw [hquiet]; rfl))

theorem step_of_reset {s : State} (hrst : s.sample.inp.rst = true) (hpipe : s.pipe ≠ []) :
    step s = .next s.sample.resetEdge := by
  have hreset : s.sample.resetAsserted = true := by
    rw [resetAsserted_iff, sample_pipe]
    exact ⟨hrst, hpipe⟩
  simp [step, stepSampled, hreset]

/-- Settles O33: with no reset in effect a valid sample is run. -/
theorem stepRunsTheDecodedInstruction : Obligations.StepRunsTheDecodedInstruction := by
  unfold Obligations.StepRunsTheDecodedInstruction
  intro s p rest hup hvalid hreset
  refine ⟨step_of_presented hup hvalid hreset, ?_, ?_, ?_, ?_, ?_⟩ <;>
    exact fun hcomponent => by simp only [InPorts.word, hcomponent, t38Of]

theorem decodeTableWord_eq_some {nbits w : Nat} {i : Instr} (h : decodeTableWord nbits w = some i) :
    ∃ ow, OpWord.ofNumber nbits w = .ok ow ∧ decode ow = i := by
  unfold decodeTableWord at h
  split at h
  · exact ⟨_, ‹_›, by simpa using h⟩
  · cases h

/-- Settles O34: the sample put in front presents the word, with no reset. -/
theorem fetchWordRunsNext : Obligations.FetchWordRunsNext := by
  unfold Obligations.FetchWordRunsNext
  intro s nbits w i hword
  obtain ⟨ow, hnumber, rfl⟩ := decodeTableWord_eq_some hword
  have hsample : InPorts.ofNumber nbits w = InPorts.ofWord ow := by rw [InPorts.ofNumber, hnumber]
  have hup : (s.withFetchWord nbits w).upstream = InPorts.ofWord ow :: s.upstream := by
    rw [State.withFetchWord, hsample]
  refine ⟨InPorts.ofWord ow, by rw [word_ofWord], ?_⟩
  rw [step_of_presented hup (valid_ofWord ow) (.inl (rst_ofWord ow)), word_ofWord]
  rfl

/-- Settles O35: either way the sample is quiet, and the step is an edge that takes a bubble. -/
theorem idleStepPutsABubble : Obligations.IdleStepPutsABubble := by
  unfold Obligations.IdleStepPutsABubble
  intro s hidle
  have hstep : step s = .next s.sample.idleEdge := by
    obtain hup | ⟨p, rest, hup, hvalid, hreset⟩ := hidle
    · exact step_of_exhausted hup
    · exact step_of_quiet (by rw [sample_of_cons hup]; exact hvalid) (by rw [sample_of_cons hup]; exact hreset)
  exact ⟨_, hstep, edge_takes s.sample none, by simp [State.idleEdge]⟩

/-- Settles O36: the step is the edge of a reset. -/
theorem resetDropsTransactionsInFlight : Obligations.ResetDropsTransactionsInFlight := by
  unfold Obligations.ResetDropsTransactionsInFlight
  intro s p rest hup hrst hpipe
  have hsample := sample_of_cons hup
  refine ⟨_, step_of_reset (by rw [hsample]; exact hrst) hpipe, ?_, rfl, by simp, by simp [hsample], by simp [hsample], rfl⟩
  simp [State.latency]

/-! ### Every step -/

/-- Settles O39: the branches of a step, and of the instruction run in it, all answer. -/
theorem stepAlwaysGoesOn : Obligations.StepAlwaysGoesOn := by
  unfold Obligations.StepAlwaysGoesOn
  intro s
  obtain ⟨-, hstep⟩ | ⟨-, -, hstep⟩ | ⟨-, -, hstep⟩ := step_cases s
  case inl => exact ⟨_, hstep⟩
  case inr.inl =>
    obtain ⟨k, hexec⟩ | ⟨r, hexec⟩ := exec_cases (decode s.sample.inp.word) s.sample
    · exact ⟨_, hstep.trans hexec⟩
    · exact ⟨_, hstep.trans hexec⟩
  case inr.inr => exact ⟨_, hstep⟩

/-- What a step does to the pipeline and the strobe: nothing, a reset's emptying, or one edge (R28, R37). -/
theorem step_pipe_cases {s t : State} (h : step s = .next t) :
    (t.pipe = s.pipe ∧ t.outValid = s.outValid ∧ t.delivered = s.delivered) ∨
    ((∀ o ∈ t.pipe, o = none) ∧ t.pipe.length = s.pipe.length ∧ t.outValid = false ∧ t.delivered = s.delivered) ∨
    (∃ o, t.pipe = (shift s.pipe o).2 ∧ t.outValid = (shift s.pipe o).1.isSome ∧
      t.delivered = s.delivered ++ (shift s.pipe o).1.toList) := by
  obtain ⟨-, hstep⟩ | ⟨-, -, hstep⟩ | ⟨-, -, hstep⟩ := step_cases s
  case inl =>
    obtain rfl : s.sample.resetEdge = t := by simpa [hstep] using h
    exact .inr (.inl (by simp))
  case inr.inl =>
    obtain ⟨k, hexec⟩ | ⟨r, hexec⟩ := exec_cases (decode s.sample.inp.word) s.sample
    · obtain rfl : { s.sample with work := k } = t := by simpa [hstep, hexec] using h
      exact .inl (by simp)
    · obtain rfl : s.sample.finish r = t := by simpa [hstep, hexec] using h
      exact .inr (.inr ⟨some r, by simp [State.finish, edge_outValid, edge_delivered]⟩)
  case inr.inr =>
    obtain rfl : s.sample.idleEdge = t := by simpa [hstep] using h
    exact .inr (.inr ⟨none, by simp [State.idleEdge, edge_outValid, edge_delivered]⟩)

/-- Settles O38: neither a reset nor an edge changes the number of registers. -/
theorem stepKeepsLatency : Obligations.StepKeepsLatency := by
  unfold Obligations.StepKeepsLatency State.latency
  intro s t hstep
  obtain ⟨hpipe, -⟩ | ⟨-, hlength, -⟩ | ⟨o, hpipe, -⟩ := step_pipe_cases hstep
  · rw [hpipe]
  · exact hlength
  · rw [hpipe, shift_length]

/-- Settles O41: the fields of the reset state. -/
theorem resetIsSilent : Obligations.ResetIsSilent := by
  unfold Obligations.ResetIsSilent
  exact ⟨rfl, by simp [State.reset, Config.defaultLatency], rfl, rfl, rfl⟩

end Sys2Proof

/-! SUPPORT. Runs: records wait in the pipeline and come out in order (R28, R37, R58, R207): the proofs of O37 and O40. -/

namespace Sys2Proof

open Machine

/-! ### No record before its time -/

/-- With bubbles in the registers that come out in the next `k + 1` steps, a step delivers nothing and leaves bubbles in
those of the next `k`. -/
theorem step_silent {s t : State} {k : Nat} (hbubbles : ∀ o ∈ s.pipe.take (k + 1), o = none) (hvalid : s.outValid = false)
    (hlatency : k + 1 ≤ s.latency) (hstep : step s = .next t) :
    (∀ o ∈ t.pipe.take k, o = none) ∧ t.outValid = false ∧ t.delivered = s.delivered := by
  obtain ⟨hpipe, houtValid, hdelivered⟩ | ⟨hempty, -, houtValid, hdelivered⟩ | ⟨r, hpipe, houtValid, hdelivered⟩ :=
    step_pipe_cases hstep
  case inl =>
    refine ⟨?_, houtValid.trans hvalid, hdelivered⟩
    rw [hpipe]
    exact fun o ho => hbubbles o (List.take_subset_take_left _ (Nat.le_succ k) ho)
  case inr.inl => exact ⟨fun o ho => hempty o (List.mem_of_mem_take ho), houtValid, hdelivered⟩
  case inr.inr =>
    rw [State.latency] at hlatency
    obtain ⟨o, rest, hregisters⟩ : ∃ o rest, s.pipe = o :: rest :=
      List.exists_cons_of_length_pos (by omega)
    rw [hregisters] at hbubbles hlatency hpipe houtValid hdelivered
    obtain ⟨rfl, hrest⟩ : o = none ∧ ∀ x ∈ rest.take k, x = none := by simpa using hbubbles
    have htake : (rest ++ [r]).take k = rest.take k := List.take_append_of_le_length (by simpa using hlatency)
    refine ⟨?_, by simpa using houtValid, by simpa using hdelivered⟩
    rw [hpipe, shift_cons, htake]
    exact hrest

/-- A run of one step more begins with a step. -/
theorem exists_step_of_run_succ {k : Nat} {s t : State} (h : Sys2Proof.core.run (k + 1) s = .next t) :
    ∃ u, step s = .next u ∧ Sys2Proof.core.run k u = .next t := by
  obtain ⟨u, hstep⟩ := stepAlwaysGoesOn s
  exact ⟨u, hstep, (run_succ Sys2Proof.core k s u hstep).symm.trans h⟩

theorem run_silent {k : Nat} {s t : State} (hbubbles : ∀ o ∈ s.pipe.take k, o = none) (hvalid : s.outValid = false)
    (hlatency : k ≤ s.latency) (hrun : Sys2Proof.core.run k s = .next t) :
    t.outValid = false ∧ t.delivered = s.delivered := by
  induction k generalizing s with
  | zero =>
    obtain rfl : s = t := Host.Outcome.next.inj hrun
    exact ⟨hvalid, rfl⟩
  | succ k ih =>
    obtain ⟨u, hstep, hrun⟩ := exists_step_of_run_succ hrun
    obtain ⟨hbubbles', hvalid', hdelivered⟩ := step_silent hbubbles hvalid hlatency hstep
    have hlatency' : u.latency = s.latency := stepKeepsLatency s u hstep
    obtain ⟨houtValid, hsame⟩ := ih hbubbles' hvalid' (by omega) hrun
    exact ⟨houtValid, hsame.trans hdelivered⟩

/-- Settles O37, by induction on the number of steps: in each of them a bubble moves one register on. -/
theorem outputsStaySilentForLatencyAfterReset : Obligations.OutputsStaySilentForLatencyAfterReset := by
  unfold Obligations.OutputsStaySilentForLatencyAfterReset
  exact fun k s t hempty hvalid hlatency hrun =>
    run_silent (fun o ho => hempty o (List.mem_of_mem_take ho)) hvalid hlatency hrun

/-! ### Every record in its order -/

theorem run_add {a b : Nat} {s t : State} (h : Sys2Proof.core.run a s = .next t) :
    Sys2Proof.core.run (a + b) s = Sys2Proof.core.run b t := by
  induction a generalizing s with
  | zero =>
    obtain rfl : s = t := Host.Outcome.next.inj h
    rw [Nat.zero_add]
  | succ a ih =>
    obtain ⟨u, hstep, hrun⟩ := exists_step_of_run_succ h
    rw [Nat.succ_add_eq_add_succ, Nat.add_succ, run_succ Sys2Proof.core _ s u hstep, ih hrun]

/-- The records delivered, then those in flight in the order in which they come out. -/
def Machine.State.records (s : State) : List Record := s.delivered ++ s.pipe.reduceOption

/-- What comes out and what stays are what was in flight, then what goes in. -/
theorem shift_reduceOption (pipe : List (Option Record)) (r : Record) :
    (shift pipe (some r)).1.toList ++ (shift pipe (some r)).2.reduceOption = pipe.reduceOption ++ [r] := by
  cases pipe with
  | nil => rfl
  | cons o rest => cases o <;> simp [List.reduceOption_append, List.reduceOption_singleton]

theorem records_finish (s : State) (r : Record) : (s.finish r).records = s.records ++ [r] := by
  rw [State.records, finish_pipe, State.finish, edge_delivered, List.append_assoc, shift_reduceOption, State.records,
    List.append_assoc]

/-- A transaction presented next is run whole in one step. -/
theorem step_of_transaction {s : State} {w : T38} {rest : List InPorts}
    (hup : s.upstream = InPorts.ofWord (.transaction w) :: rest) :
    ∃ t r, step s = .next t ∧ t.upstream = rest ∧ t.records = s.records ++ [r] ∧ TransactionRecord w r := by
  obtain ⟨r, hends⟩ := exists_exec_eq_finish w
  have hstep := step_of_presented hup (valid_ofWord _) (.inl (rst_ofWord _))
  rw [word_ofWord, (hends _).1] at hstep
  exact ⟨_, r, hstep, by simp, by rw [records_finish]; rfl, fun st => ⟨_, (hends st).1, finish_delivers st r⟩⟩

/-- Transactions presented back to back each add their record. -/
theorem run_transactions {ws : List T38} {s : State}
    (hup : s.upstream = ws.map (fun w => InPorts.ofWord (.transaction w))) :
    ∃ t rs, Sys2Proof.core.run ws.length s = .next t ∧ t.upstream = [] ∧ t.latency = s.latency ∧
      t.records = s.records ++ rs ∧ List.Forall₂ TransactionRecord ws rs := by
  induction ws generalizing s with
  | nil => exact ⟨s, [], rfl, hup, rfl, (List.append_nil _).symm, .nil⟩
  | cons w ws ih =>
    obtain ⟨u, r, hstep, hup', hrecords, hr⟩ := step_of_transaction hup
    obtain ⟨t, rs, hrun, hexhausted, hlatency, hrecords', hrs⟩ := ih hup'
    refine ⟨t, r :: rs, (run_succ Sys2Proof.core _ s u hstep).trans hrun, hexhausted,
      hlatency.trans (stepKeepsLatency s u hstep), ?_, .cons hr hrs⟩
    rw [hrecords', hrecords, List.append_assoc]
    rfl

/-- With nothing more presented the registers come out, the first `front.length` of them in as many steps. -/
theorem run_drains {front back : List (Option Record)} {s : State} (hup : s.upstream = [])
    (hpipe : s.pipe = front ++ back) :
    ∃ t, Sys2Proof.core.run front.length s = .next t ∧ t.delivered = s.delivered ++ front.reduceOption := by
  induction front generalizing s back with
  | nil => exact ⟨s, rfl, (List.append_nil _).symm⟩
  | cons o front ih =>
    have hstep := step_of_exhausted hup
    have hup' : s.sample.idleEdge.upstream = [] := by simp [State.idleEdge, sample_of_nil hup, hup]
    have hpipe' : s.sample.idleEdge.pipe = front ++ (back ++ [none]) := by simp [State.idleEdge, hpipe]
    have hdelivered : s.sample.idleEdge.delivered = s.delivered ++ o.toList := by
      simp [State.idleEdge, edge_delivered, hpipe]
    obtain ⟨t, hrun, ht⟩ := ih hup' hpipe'
    refine ⟨t, (run_succ Sys2Proof.core _ s _ hstep).trans hrun, ?_⟩
    rw [ht, hdelivered]
    cases o <;> simp

/-- Settles O40: the transactions add their records in order, and the idle steps bring out those still in flight. -/
theorem runDeliversRecordsInOrder : Obligations.RunDeliversRecordsInOrder := by
  unfold Obligations.RunDeliversRecordsInOrder
  intro ws s hempty hup
  obtain ⟨u, rs, hrun, hexhausted, hlatency, hrecords, hrs⟩ := run_transactions hup
  obtain ⟨t, hdrain, hdelivered⟩ := run_drains (back := []) hexhausted (List.append_nil _).symm
  have hnoneInFlight : s.pipe.reduceOption = [] := by
    rw [List.eq_replicate_of_mem hempty]
    exact List.reduceOption_replicate_none
  refine ⟨t, rs, ?_, ?_, hrs⟩
  · rw [run_add hrun, ← hlatency]
    exact hdrain
  · calc t.delivered = u.records := hdelivered
      _ = s.records ++ rs := hrecords
      _ = s.delivered ++ rs := by rw [State.records, hnoneInFlight, List.append_nil]

end Sys2Proof

/-! SUPPORT. The numbers that the records stand for (R138 to R142), and the proofs of O23, O24 and O27. -/

namespace Sys2Proof

open Machine

/-! ### The record of a transaction, by its word -/

/-- The record of a transaction word is that of `InvalidLength`, or the length is full and the exponent selects the case. -/
theorem transactionRecord_cases {w : T38} {r : Record} (h : TransactionRecord w r) :
    IsInvalidLengthRecord r ∨ ∃ s e f, w = t38Of 32#6 (w32Of s e f) ∧
      (e = 0x00#8 ∧ IsSubnormalRecord r s f ∨ e = 0xFF#8 ∧ IsSpecialRecord r s f ∨
        e.toNat ≠ 0 ∧ e.toNat ≠ 255 ∧ IsNormalRecord r s e f) := by
  obtain ⟨len, s, e, f, rfl⟩ := exists_eq_t38Of_w32Of w
  obtain rfl := eq_record_of_transactionRecord h
  rw [classOf_eq_tests]
  split_ifs with hlen hzero hspecial
  · exact .inl invalidLength_isInvalidLengthRecord
  all_goals
    obtain rfl : len = 32#6 := not_not.mp hlen
    refine .inr ⟨s, e, f, rfl, ?_⟩
  · exact .inl ⟨BitVec.eq_of_toNat_eq hzero, ClassOp.record_subn s e f⟩
  · exact .inr (.inl ⟨BitVec.eq_of_toNat_eq hspecial, ClassOp.record_spec s e f⟩)
  · exact .inr (.inr ⟨hzero, hspecial, ClassOp.record_norm s f hzero hspecial⟩)

/-- A full length and exponent 0 give a subnormal record. -/
theorem exists_subnormalRecord (s : SignField) (f : FracField) :
    ∃ r, TransactionRecord (t38Of 32#6 (w32Of s 0x00#8 f)) r ∧ IsSubnormalRecord r s f := by
  refine ⟨_, transactionRecord_t38Of 32#6 s 0x00#8 f, ?_⟩
  rw [classOf_eq_tests]
  exact ClassOp.record_subn s 0x00#8 f

/-- A full length and exponent 1 to 254 give a normal record. -/
theorem exists_normalRecord (s : SignField) {e : ExpField} (f : FracField) (hzero : e.toNat ≠ 0)
    (hspecial : e.toNat ≠ 255) :
    ∃ r, TransactionRecord (t38Of 32#6 (w32Of s e f)) r ∧ IsNormalRecord r s e f := by
  refine ⟨_, transactionRecord_t38Of 32#6 s e f, ?_⟩
  rw [classOf_eq_tests, if_neg (by simp), if_neg hzero, if_neg hspecial]
  exact ClassOp.record_norm s f hzero hspecial

/-! ### The pair (`neg`, `mag`) -/

theorem value_of_noError {r : Record} (h : r.err = 0#2) :
    r.value = (r.signF == 1#1, (2 : ℚ) ^ r.expUnb.toInt * r.sig.toNat / 2 ^ 23) := by
  rw [Record.value, if_pos h]

theorem value_of_error {r : Record} (h : r.err ≠ 0#2) : r.value = (false, 0) := by
  rw [Record.value, if_neg h]

section
variable {r : Record} {s : SignField} {e : ExpField} {f : FracField}

theorem Machine.IsNormalRecord.value_eq (h : IsNormalRecord r s e f) :
    r.value = (s == 1#1, 2 ^ ((e.toNat : ℤ) - 127) * (1 + (f.toNat : ℚ) / 2 ^ 23)) := by
  obtain ⟨hsign, -, -⟩ := h.fields
  have hsig : r.sig.toNat = 2 ^ 23 + f.toNat := by rw [h.sig, toNat_append_eq]; simp
  have hmag : ((2 ^ 23 + f.toNat : ℕ) : ℚ) / 2 ^ 23 = 1 + f.toNat / 2 ^ 23 := by push_cast; ring
  rw [value_of_noError h.err, hsign, h.expUnb, hsig, mul_div_assoc, hmag]

theorem Machine.IsSubnormalRecord.value_eq (h : IsSubnormalRecord r s f) :
    r.value = (s == 1#1, 2 ^ (-126 : ℤ) * ((f.toNat : ℚ) / 2 ^ 23)) := by
  obtain ⟨hsign, -, -⟩ := h.fields
  have hsig : r.sig.toNat = f.toNat := by rw [h.sig, toNat_append_eq]; simp
  rw [value_of_noError h.err, hsign, h.expUnb, hsig, mul_div_assoc]

/-! ### The 64-bit pattern, in the binary64 layout -/

/-- R139: exponent field and fraction field of a normal result. -/
theorem Machine.IsNormalRecord.value64_eq (h : IsNormalRecord r s e f) :
    r.value64 = binary64Of s (e.toNat + 896) (f.toNat * 2 ^ 29) := by
  rw [h.value64, binary64Of, frac52_eq_append]
  exact BitVec.append_assoc

/-- R141: both fields of a zero are zero. -/
theorem Machine.IsSubnormalRecord.value64_of_zero (h : IsSubnormalRecord r s f) (hzero : f = 0#23) :
    r.value64 = binary64Of s 0 0 := by
  have hdenormal := pack64Denormal_zero s
  rw [pack64Denormal, if_pos rfl, pack64Zero, signOf_toNat] at hdenormal
  rw [h.zero hzero, hdenormal]

/-- R140: exponent field and fraction field of a subnormal result whose most significant 1 is in position `p`. -/
theorem Machine.IsSubnormalRecord.value64_eq (h : IsSubnormalRecord r s f) {p k : Nat} (hf : f.toNat = 2 ^ p + k)
    (hk : k < 2 ^ p) : r.value64 = binary64Of s (p + 874) (k * 2 ^ (52 - p)) :=
  h.normalised p k hf hk

/-- A fraction field other than 0 has a most significant 1, and the bits below it. -/
theorem exists_leading_one (hf : f ≠ 0#23) : ∃ p k, p < 23 ∧ f.toNat = 2 ^ p + k ∧ k < 2 ^ p := by
  have hne : f.toNat ≠ 0 := by simpa using BitVec.toNat_ne.mp hf
  have hle := Nat.log2_self_le hne
  have hlt := Nat.lt_log2_self (n := f.toNat)
  exact ⟨f.toNat.log2, f.toNat - 2 ^ f.toNat.log2, (Nat.log2_lt hne).mpr f.isLt, by omega, by omega⟩

end

/-! ### Reading a pattern -/

theorem signedValue_eq_mul (x : Bool × ℚ) : signedValue x = (if x.1 then -1 else 1) * x.2 := by
  rw [signedValue]
  split_ifs <;> simp

theorem msb_binary64Of (s : SignField) (E F : Nat) : (binary64Of s E F).msb = (s == 1#1) := msb_append64 _ _ _

theorem binary64Value_zero (s : SignField) : binary64Value (binary64Of s 0 0) = some 0 := by
  rw [binary64Value, binary64Of, expField64_append, fracField64_append]
  rfl

/-- R139: a normal number is its sign, two to its unbiased exponent, and its significand with the implicit 1. -/
theorem binary64Value_normal (s : SignField) {E F : Nat} (hpos : 1 ≤ E) (hmax : E ≤ 2046) (hF : F < 2 ^ 52) :
    binary64Value (binary64Of s E F) =
      some (signedValue (s == 1#1, 2 ^ ((E : ℤ) - 1023) * (1 + (F : ℚ) / 2 ^ 52))) := by
  have hE : (BitVec.ofNat 11 E).toNat = E := by rw [BitVec.toNat_ofNat]; omega
  have hF : (BitVec.ofNat 52 F).toNat = F := by rw [BitVec.toNat_ofNat]; omega
  have hne : BitVec.ofNat 11 E ≠ 0#11 := by
    intro heq
    rw [heq] at hE
    simp at hE
    omega
  rw [binary64Value, msb_binary64Of, binary64Of, expField64_append, fracField64_append, hE, hF, if_neg (by simp [hne]),
    if_pos ⟨hpos, hmax⟩, signedValue_eq_mul, mul_assoc]

section
variable {r : Record} {s : SignField} {e : ExpField} {f : FracField}

theorem Machine.IsNormalRecord.binary64Value_eq (h : IsNormalRecord r s e f) :
    binary64Value r.value64 = some (signedValue r.value) := by
  have hexp : ((e.toNat + 896 : ℕ) : ℤ) - 1023 = (e.toNat : ℤ) - 127 := by push_cast; ring
  have hfrac : ((f.toNat * 2 ^ 29 : ℕ) : ℚ) / 2 ^ 52 = f.toNat / 2 ^ 23 := by push_cast; ring
  have hE := e.isLt
  have hF := f.isLt
  rw [h.value64_eq, binary64Value_normal s (by omega) (by omega) (by omega), h.value_eq, hexp, hfrac]

/-- R140: moving the most significant 1 to the front and the exponent with it leaves the value as it is. -/
theorem normalised_magnitude {p k : Nat} (hp : p < 23) :
    (2 : ℚ) ^ (((p + 874 : ℕ) : ℤ) - 1023) * (1 + ((k * 2 ^ (52 - p) : ℕ) : ℚ) / 2 ^ 52) =
      2 ^ (-126 : ℤ) * (((2 ^ p + k : ℕ) : ℚ) / 2 ^ 23) := by
  have hexp : (2 : ℚ) ^ (((p + 874 : ℕ) : ℤ) - 1023) = 2 ^ p * 2 ^ (-149 : ℤ) := by
    rw [show ((p + 874 : ℕ) : ℤ) - 1023 = p + -149 by push_cast; ring, zpow_add₀ (by norm_num), zpow_natCast]
  have hfrac : ((k * 2 ^ (52 - p) : ℕ) : ℚ) / 2 ^ 52 = k / 2 ^ p := by
    rw [div_eq_div_iff (by positivity) (by positivity)]
    push_cast
    rw [mul_assoc, ← pow_add, Nat.sub_add_cancel (by omega)]
  rw [hexp, hfrac]
  push_cast
  field_simp

theorem Machine.IsSubnormalRecord.binary64Value_eq (h : IsSubnormalRecord r s f) :
    binary64Value r.value64 = some (signedValue r.value) := by
  by_cases hf : f = 0#23
  · rw [h.value64_of_zero hf, binary64Value_zero, h.value_eq, hf]
    simp [signedValue]
  · obtain ⟨p, k, hp, hfrac, hk⟩ := exists_leading_one hf
    have hF : k * 2 ^ (52 - p) < 2 ^ 52 := by
      calc k * 2 ^ (52 - p) < 2 ^ p * 2 ^ (52 - p) := Nat.mul_lt_mul_of_pos_right hk (by positivity)
        _ = 2 ^ 52 := by rw [← pow_add]; congr 1; omega
    rw [h.value64_eq hfrac hk, binary64Value_normal s (by omega) (by omega) hF, h.value_eq, hfrac,
      normalised_magnitude hp]

theorem Machine.IsSubnormalRecord.msb_value64 (h : IsSubnormalRecord r s f) : r.value64.msb = (s == 1#1) := by
  by_cases hf : f = 0#23
  · rw [h.value64_of_zero hf, msb_binary64Of]
  · obtain ⟨p, k, -, hfrac, hk⟩ := exists_leading_one hf
    rw [h.value64_eq hfrac hk, msb_binary64Of]

end

/-- Settles O23: in both classes the pair is the formula's, and the pattern is read as the same number. -/
theorem valueIsExactlyTheFormula : Obligations.ValueIsExactlyTheFormula := by
  unfold Obligations.ValueIsExactlyTheFormula
  intro s e f hspecial
  by_cases hzero : e = 0x00#8
  · subst hzero
    obtain ⟨r, hr, hrecord⟩ := exists_subnormalRecord s f
    exact ⟨r, hr, hrecord.value_eq, hrecord.binary64Value_eq, hrecord.msb_value64⟩
  · obtain ⟨r, hr, hrecord⟩ := exists_normalRecord (e := e) s f (by bv_omega) (by bv_omega)
    refine ⟨r, hr, ?_, hrecord.binary64Value_eq, by rw [hrecord.value64_eq, msb_binary64Of]⟩
    rw [if_neg hzero]
    exact hrecord.value_eq

/-! ### The range of the results -/

/-- R146: the smallest significand at the smallest exponent, and the largest at the largest. -/
theorem magnitude_bounds {E : ℤ} {n : Nat} (hEmin : -126 ≤ E) (hEmax : E ≤ 127) (hpos : 0 < n) (hn : n < 2 ^ 24) :
    (2 : ℚ) ^ (-149 : ℤ) ≤ 2 ^ E * n / 2 ^ 23 ∧ (2 : ℚ) ^ E * n / 2 ^ 23 ≤ 2 ^ 128 - 2 ^ 104 := by
  have hlow : (2 : ℚ) ^ (-126 : ℤ) ≤ 2 ^ E := zpow_le_zpow_right₀ (by norm_num) hEmin
  have hhigh : (2 : ℚ) ^ E ≤ 2 ^ (127 : ℤ) := zpow_le_zpow_right₀ (by norm_num) hEmax
  have hone : (1 : ℚ) ≤ n := by exact_mod_cast hpos
  have htop : (n : ℚ) ≤ 2 ^ 24 - 1 := by
    have : n + 1 ≤ 2 ^ 24 := hn
    rw [le_sub_iff_add_le]
    exact_mod_cast this
  constructor
  · calc (2 : ℚ) ^ (-149 : ℤ) = 2 ^ (-126 : ℤ) * 1 / 2 ^ 23 := by norm_num
      _ ≤ 2 ^ E * n / 2 ^ 23 := by gcongr
  · calc (2 : ℚ) ^ E * n / 2 ^ 23 ≤ 2 ^ (127 : ℤ) * (2 ^ 24 - 1) / 2 ^ 23 := by gcongr
      _ = 2 ^ 128 - 2 ^ 104 := by norm_num

theorem value_range_of_noError {r : Record} (herr : r.err = 0#2) (hmin : -126 ≤ r.expUnb.toInt)
    (hmax : r.expUnb.toInt ≤ 127) :
    r.value.2 = 0 ∨ ((2 : ℚ) ^ (-149 : ℤ) ≤ r.value.2 ∧ r.value.2 ≤ 2 ^ 128 - 2 ^ 104) := by
  rw [value_of_noError herr]
  rcases Nat.eq_zero_or_pos r.sig.toNat with hzero | hpos
  · exact .inl (by simp [hzero])
  · exact .inr (magnitude_bounds hmin hmax hpos r.sig.isLt)

/-- Settles O24: without an error the exponent output lies from -126 to 127, and an error gives 0. -/
theorem valueRange : Obligations.ValueRange := by
  unfold Obligations.ValueRange
  intro w r hr
  obtain hinvalid | ⟨s, e, f, -, ⟨-, hsub⟩ | ⟨-, hspecial⟩ | ⟨hzero, hne, hnormal⟩⟩ := transactionRecord_cases hr
  · exact .inl (by rw [value_of_error (by rw [hinvalid.err]; decide)])
  · exact value_range_of_noError hsub.err hsub.expUnb.ge (by rw [hsub.expUnb]; norm_num)
  · exact .inl (by rw [value_of_error (by rw [hspecial.err]; decide)])
  · have hlt := e.isLt
    exact value_range_of_noError hnormal.err (by rw [hnormal.expUnb]; omega) (by rw [hnormal.expUnb]; omega)

/-! ### The fields of the pattern -/

theorem expField64_binary64Of (s : SignField) {E : Nat} (hE : E < 2 ^ 11) (F : Nat) :
    (expField64 (binary64Of s E F)).toNat = E := by
  rw [binary64Of, expField64_append, BitVec.toNat_ofNat, Nat.mod_eq_of_lt hE]

/-- Zeros at the end of the fraction are zeros at the end of the pattern. -/
theorem trailing_zeros_binary64Of (s : SignField) (E m : Nat) {j : Nat} (hj : j ≤ 52) :
    (binary64Of s E (m * 2 ^ j)).extractLsb' 0 j = 0#j := by
  apply BitVec.eq_of_toNat_eq
  have hdvd : 2 ^ j ∣ 2 ^ 52 := pow_dvd_pow 2 hj
  rw [BitVec.extractLsb'_toNat, binary64Of, toNat_append_eq, BitVec.toNat_ofNat, BitVec.toNat_ofNat, Nat.shiftRight_zero,
    Nat.zero_mod]
  exact Nat.mod_eq_zero_of_dvd
    (dvd_add (dvd_mul_of_dvd_right hdvd _) ((Nat.dvd_mod_iff hdvd).mpr (dvd_mul_left _ _)))

theorem expField64_ne_of_toNat_lt {v : Value64} (h : (expField64 v).toNat < 2047) : expField64 v ≠ 0x7FF#11 := by
  intro heq
  simp [heq] at h

section
variable {r : Record} {s : SignField} {e : ExpField} {f : FracField}

theorem Machine.IsNormalRecord.expField64_eq (h : IsNormalRecord r s e f) : (expField64 r.value64).toNat = e.toNat + 896 := by
  rw [h.value64_eq, expField64_binary64Of s (by have := e.isLt; omega)]

/-- V6, and the zero of R141: a subnormal pattern has at least 30 trailing zeros, and is a zero or has an exponent field
in the range of the normalised ones. -/
theorem Machine.IsSubnormalRecord.pattern (h : IsSubnormalRecord r s f) :
    r.value64.extractLsb' 0 30 = 0#30 ∧ (r.value64.extractLsb' 0 63 = 0#63 ∧ (expField64 r.value64).toNat = 0 ∨
      874 ≤ (expField64 r.value64).toNat ∧ (expField64 r.value64).toNat ≤ 896) := by
  by_cases hf : f = 0#23
  · refine ⟨?_, .inl ⟨?_, ?_⟩⟩
    · rw [h.value64_of_zero hf]
      exact trailing_zeros_binary64Of s 0 0 (by norm_num)
    · rw [h.zero hf]
      exact BitVec.extractLsb'_append_eq_right
    · rw [h.value64_of_zero hf, expField64_binary64Of s (by norm_num)]
  · obtain ⟨p, k, hp, hfrac, hk⟩ := exists_leading_one hf
    have hshift : k * 2 ^ (52 - p) = k * 2 ^ (22 - p) * 2 ^ 30 := by
      rw [mul_assoc, ← pow_add]
      congr 2
      omega
    rw [h.value64_eq hfrac hk, expField64_binary64Of s (by omega), hshift]
    exact ⟨trailing_zeros_binary64Of s _ _ (by norm_num), .inr ⟨by omega, by omega⟩⟩

end

/-- Settles O27, by the class of the record: the exponent fields are 897 to 1150, 874 to 896 or 0. -/
theorem noInfinityOrNanPattern : Obligations.NoInfinityOrNanPattern := by
  unfold Obligations.NoInfinityOrNanPattern
  intro w r hr
  obtain hinvalid | ⟨s, e, f, -, ⟨-, hsub⟩ | ⟨-, hspecial⟩ | ⟨hzero, hne, hnormal⟩⟩ := transactionRecord_cases hr
  · obtain ⟨-, -, hvalue⟩ := hinvalid.numeric
    simp [hinvalid.err, hinvalid.cls, hvalue, expField64]
  · obtain ⟨htrailing, hfield⟩ := hsub.pattern
    refine ⟨expField64_ne_of_toNat_lt (by omega), fun _ => ?_, by simp [hsub.cls], fun _ => htrailing⟩
    obtain ⟨hzeros, -⟩ | ⟨hlow, hhigh⟩ := hfield
    · exact .inl hzeros
    · exact .inr ⟨hlow, by omega⟩
  · obtain ⟨-, -, hvalue⟩ := hspecial.numeric
    simp [hspecial.err, hspecial.cls, hvalue, expField64]
  · have hfield := hnormal.expField64_eq
    have hlt := e.isLt
    refine ⟨expField64_ne_of_toNat_lt (by omega), fun _ => .inr ⟨by omega, by omega⟩, fun _ => ?_, by simp [hnormal.cls]⟩
    rw [hnormal.value64_eq]
    exact trailing_zeros_binary64Of s _ _ (by norm_num)

end Sys2Proof

/-! SUPPORT. Different words give different results (R146), and the sign bit reaches the sign alone (R144): the proofs of
O25 and O26. -/

namespace Sys2Proof

open Machine

/-! ### The magnitude as a natural number -/

/-- The magnitude of the formula in units of 2^-150, by stored exponent and fraction field. -/
def scaledMagnitude (e f : Nat) : Nat := if e = 0 then 2 * f else 2 ^ e * (2 ^ 23 + f)

/-- The formula of both classes is the scaled magnitude (R138). -/
theorem formula_eq_scaledMagnitude (e : ExpField) (f : FracField) :
    (if e = 0x00#8 then 2 ^ (-126 : ℤ) * ((f.toNat : ℚ) / 2 ^ 23)
      else 2 ^ ((e.toNat : ℤ) - 127) * (1 + (f.toNat : ℚ) / 2 ^ 23)) =
      (scaledMagnitude e.toNat f.toNat : ℚ) * 2 ^ (-150 : ℤ) := by
  by_cases hzero : e = 0x00#8
  · rw [if_pos hzero, hzero, scaledMagnitude, if_pos (by simp)]
    push_cast
    ring
  · have hnat : e.toNat ≠ 0 := by bv_omega
    have hexp : (2 : ℚ) ^ ((e.toNat : ℤ) - 127) = 2 ^ e.toNat * 2 ^ (-127 : ℤ) := by
      rw [sub_eq_add_neg, zpow_add₀ (by norm_num), zpow_natCast]
    rw [if_neg hzero, scaledMagnitude, if_neg hnat, hexp]
    push_cast
    ring

theorem scaledMagnitude_lt {e f : Nat} (hf : f < 2 ^ 23) : scaledMagnitude e f < 2 ^ e * 2 ^ 24 := by
  rw [scaledMagnitude]
  split_ifs with hzero
  · subst hzero
    omega
  · exact Nat.mul_lt_mul_of_pos_left (by omega) (by positivity)

theorem le_scaledMagnitude {e : Nat} (he : e ≠ 0) (f : Nat) : 2 ^ e * 2 ^ 23 ≤ scaledMagnitude e f := by
  rw [scaledMagnitude, if_neg he]
  exact Nat.mul_le_mul_left _ (by omega)

/-- Every magnitude of a smaller exponent lies below every one of a larger. -/
theorem scaledMagnitude_lt_of_lt {e e' f : Nat} (h : e < e') (hf : f < 2 ^ 23) (f' : Nat) :
    scaledMagnitude e f < scaledMagnitude e' f' := by
  calc scaledMagnitude e f < 2 ^ e * 2 ^ 24 := scaledMagnitude_lt hf
    _ = 2 ^ (e + 1) * 2 ^ 23 := by ring
    _ ≤ 2 ^ e' * 2 ^ 23 := Nat.mul_le_mul_right _ (Nat.pow_le_pow_right (by norm_num) h)
    _ ≤ scaledMagnitude e' f' := le_scaledMagnitude (by omega) f'

theorem scaledMagnitude_right_inj {e f f' : Nat} (h : scaledMagnitude e f = scaledMagnitude e f') : f = f' := by
  simp only [scaledMagnitude] at h
  split_ifs at h with hzero
  · omega
  · have hsum : 2 ^ 23 + f = 2 ^ 23 + f' := Nat.eq_of_mul_eq_mul_left (by positivity) h
    omega

theorem scaledMagnitude_inj {e e' : ExpField} {f f' : FracField}
    (h : scaledMagnitude e.toNat f.toNat = scaledMagnitude e'.toNat f'.toNat) : e = e' ∧ f = f' := by
  obtain hlt | heq | hgt := Nat.lt_trichotomy e.toNat e'.toNat
  · exact absurd h (scaledMagnitude_lt_of_lt hlt f.isLt _).ne
  · obtain rfl : e = e' := BitVec.eq_of_toNat_eq heq
    exact ⟨rfl, BitVec.eq_of_toNat_eq (scaledMagnitude_right_inj h)⟩
  · exact absurd h (scaledMagnitude_lt_of_lt hgt f'.isLt _).ne'

theorem beq_one_inj {s s' : SignField} (h : (s == 1#1) = (s' == 1#1)) : s = s' := by
  revert s s'
  decide

/-! ### The results without an error -/

/-- Without an error the length is full, the exponent is not 255, and O23 gives the result. -/
theorem result_of_noError {w : T38} {r : Record} (h : TransactionRecord w r) (herr : r.err = 0#2) :
    ∃ s e f, w = t38Of 32#6 (w32Of s e f) ∧
      r.value = (s == 1#1, (scaledMagnitude e.toNat f.toNat : ℚ) * 2 ^ (-150 : ℤ)) ∧
      binary64Value r.value64 = some (signedValue r.value) ∧ r.value64.msb = r.value.1 := by
  obtain ⟨len, s, e, f, rfl⟩ := exists_eq_t38Of_w32Of w
  obtain rfl := eq_record_of_transactionRecord h
  obtain ⟨hinvlen, hspec⟩ := (ClassOp.record_err_iff _ s e f).2.2.mp herr
  obtain rfl : len = 32#6 := not_not.mp (mt (classOf_eq_invlen_iff len s e f).mpr hinvlen)
  have he : e ≠ 0xFF#8 := fun he => hspec ((classOf_eq_spec_iff 32#6 s e f).mpr ⟨rfl, he⟩)
  obtain ⟨r', hr', hvalue, hpattern, hmsb⟩ := valueIsExactlyTheFormula s e f he
  obtain rfl := transactionRecord_unique hr' h
  rw [formula_eq_scaledMagnitude] at hvalue
  exact ⟨s, e, f, rfl, hvalue, hpattern, by rw [hmsb, hvalue]⟩

/-- A sign and the number that the pair stands for determine the pair. -/
theorem eq_of_signedValue_eq {x y : Bool × ℚ} (hsign : x.1 = y.1) (h : signedValue x = signedValue y) : x = y := by
  rw [signedValue_eq_mul, signedValue_eq_mul, hsign] at h
  exact Prod.ext hsign (mul_left_cancel₀ (by split_ifs <;> norm_num) h)

/-- Settles O25: equal patterns are read as equal pairs, and the pair gives back the sign, the exponent and the fraction. -/
theorem resultsAreInjective : Obligations.ResultsAreInjective := by
  unfold Obligations.ResultsAreInjective
  intro w w' r r' hr hr' herr herr' hresult
  obtain ⟨s, e, f, rfl, hvalue, hpattern, hmsb⟩ := result_of_noError hr herr
  obtain ⟨s', e', f', rfl, hvalue', hpattern', hmsb'⟩ := result_of_noError hr' herr'
  have hpair : r.value = r'.value := by
    obtain hbits | hpair := hresult
    · rw [hbits] at hpattern hmsb
      exact eq_of_signedValue_eq (hmsb.symm.trans hmsb') (Option.some.inj (hpattern.symm.trans hpattern'))
    · exact hpair
  rw [hvalue, hvalue', Prod.mk.injEq] at hpair
  obtain ⟨hsign, hmag⟩ := hpair
  have hscaled : scaledMagnitude e.toNat f.toNat = scaledMagnitude e'.toNat f'.toNat := by
    exact_mod_cast mul_right_cancel₀ (zpow_ne_zero _ (by norm_num)) hmag
  obtain rfl := beq_one_inj hsign
  obtain ⟨rfl, rfl⟩ := scaledMagnitude_inj hscaled
  rfl

/-! ### The sign bit -/

theorem classOf_sign (len : Len) (s s' : SignField) (e : ExpField) (f : FracField) :
    classOf (t38Of len (w32Of s e f)) = classOf (t38Of len (w32Of s' e f)) := by
  rw [classOf_eq_tests, classOf_eq_tests]

theorem binary64Of_not (s : SignField) (E F : Nat) :
    binary64Of (~~~s) E F = binary64Of s E F ^^^ 0x8000000000000000#64 := by
  have hmask : 0x8000000000000000#64 = 1#1 ++ 0#11 ++ 0#52 := by decide
  have hflip : ~~~s = s ^^^ 1#1 := by revert s; decide
  rw [binary64Of, binary64Of, hmask, hflip, BitVec.xor_append, BitVec.xor_append, BitVec.xor_zero, BitVec.xor_zero]

theorem pack64Normal_not (s : SignField) (v n : Nat) :
    pack64Normal (~~~s).toNat v n = pack64Normal s.toNat v n ^^^ 0x8000000000000000#64 := by
  rw [pack64Normal, pack64Normal, signOf_toNat, signOf_toNat, binary64Of_not]

/-- R144: the sign of a zero follows the sign bit as that of any other result does. -/
theorem pack64Denormal_not (s : SignField) (n : Nat) :
    pack64Denormal (~~~s).toNat n = pack64Denormal s.toNat n ^^^ 0x8000000000000000#64 := by
  rw [pack64Denormal, pack64Denormal]
  split_ifs
  · rw [pack64Zero, pack64Zero, signOf_toNat, signOf_toNat, binary64Of_not]
  · rw [pack64Subnormal, pack64Subnormal, signOf_toNat, signOf_toNat, binary64Of_not]

/-- R144: in each of the rows of a full length. -/
theorem ClassOp.record_not {op : ClassOp} (hop : op ≠ .invlen) (s : SignField) (e : ExpField) (f : FracField) :
    op.record (~~~s) e f =
      { op.record s e f with
        signF := ~~~(op.record s e f).signF
        value64 := if (op.record s e f).err = 0#2 then (op.record s e f).value64 ^^^ 0x8000000000000000#64
          else (op.record s e f).value64 } := by
  cases op with
  | subn => simp only [ClassOp.record, Record.driveSubnormal, pack64Denormal_not]; rfl
  | spec => rfl
  | norm => simp only [ClassOp.record, Record.driveNormal, pack64Normal_not]; rfl
  | invlen => exact absurd rfl hop

/-- Settles O26: both words select one row, whose record takes the sign bit into the sign alone. -/
theorem signBitFlipsOnlyTheSign : Obligations.SignBitFlipsOnlyTheSign := by
  unfold Obligations.SignBitFlipsOnlyTheSign
  intro s e f r r' hr hr'
  have hop : classOf (t38Of 32#6 (w32Of s e f)) ≠ .invlen := by
    rw [Ne, classOf_eq_invlen_iff]
    simp
  obtain rfl := eq_record_of_transactionRecord hr
  obtain rfl := eq_record_of_transactionRecord hr'
  rw [classOf_sign 32#6 (~~~s) s e f]
  exact ClassOp.record_not hop s e f

end Sys2Proof

/-! SUPPORT. The 136 bits of a record, field by field (R51), and the proof of O7. -/

namespace Sys2Proof

open Machine

theorem ofBool_getLsbD {n : Nat} (b : BitVec n) (i : Nat) : BitVec.ofBool (b.getLsbD i) = b.extractLsb' i 1 := by
  apply BitVec.eq_of_getLsbD_eq
  intro j hj
  obtain rfl : j = 0 := by omega
  simp

theorem append_inj {n m : Nat} {x x' : BitVec n} {y y' : BitVec m} (h : x ++ y = x' ++ y') : x = x' ∧ y = y' :=
  ⟨by simpa [BitVec.extractLsb'_append_eq_left] using congrArg (·.extractLsb' m n) h,
    by simpa [BitVec.extractLsb'_append_eq_right] using congrArg (·.extractLsb' 0 m) h⟩

/-- R51: the places of the ports join up. -/
theorem toBits_ofBits (b : BitVec 136) : (Record.ofBits b).toBits = b := by
  simp only [Record.toBits, Record.ofBits, ofBool_getLsbD, BitVec.extractLsb'_append_extractLsb'_eq_extractLsb']
  exact BitVec.extractLsb'_eq_self

/-- R51: no port shares a bit with another. -/
theorem toBits_inj {r r' : Record} (h : r.toBits = r'.toBits) : r = r' := by
  simp only [Record.toBits] at h
  obtain ⟨h, hvalue64⟩ := append_inj h
  obtain ⟨h, hsig⟩ := append_inj h
  obtain ⟨h, hexpUnb⟩ := append_inj h
  obtain ⟨h, hisNan⟩ := append_inj h
  obtain ⟨h, hisInf⟩ := append_inj h
  obtain ⟨h, hisZero⟩ := append_inj h
  obtain ⟨h, hfracZero⟩ := append_inj h
  obtain ⟨h, hcls⟩ := append_inj h
  obtain ⟨h, hfracF⟩ := append_inj h
  obtain ⟨h, hexpF⟩ := append_inj h
  obtain ⟨herr, hsignF⟩ := append_inj h
  cases r
  cases r'
  simp only [Record.mk.injEq]
  exact ⟨herr, hsignF, hexpF, hfracF, hcls, BitVec.ofBool_eq_iff_eq.mp hfracZero, BitVec.ofBool_eq_iff_eq.mp hisZero,
    BitVec.ofBool_eq_iff_eq.mp hisInf, BitVec.ofBool_eq_iff_eq.mp hisNan, hexpUnb, hsig, hvalue64⟩

/-- Settles O7: the 136 bits are joined from the ports, and one record at most gives them. -/
theorem recordIsOneHundredThirtySixBits : Obligations.RecordIsOneHundredThirtySixBits := by
  unfold Obligations.RecordIsOneHundredThirtySixBits
  exact ⟨fun r => toBits_inj (toBits_ofBits r.toBits), toBits_ofBits⟩

end Sys2Proof

/-! SUPPORT. The rows of the class map as sets of lengths and exponents (R75), and the proof of O5. -/

namespace Sys2Proof

open Machine

/-- The lengths that a row of the class map admits. -/
def ClassOp.lengths : ClassOp → Set Len
  | .invlen => {32#6}ᶜ
  | _ => {32#6}

/-- The stored exponents that a row of the class map admits. -/
def ClassOp.exponents : ClassOp → Set ExpField
  | .subn => {0x00#8}
  | .spec => {0xFF#8}
  | .norm => {0x00#8, 0xFF#8}ᶜ
  | .invlen => Set.univ

/-- R75: a row is a set of lengths and a set of exponents; sign and fraction are free. -/
theorem classOf_eq_iff (len : Len) (s : SignField) (e : ExpField) (f : FracField) (op : ClassOp) :
    classOf (t38Of len (w32Of s e f)) = op ↔ len ∈ op.lengths ∧ e ∈ op.exponents := by
  have hzero : e.toNat = 0 ↔ e = 0x00#8 := by bv_omega
  have hspecial : e.toNat = 255 ↔ e = 0xFF#8 := by bv_omega
  simp only [classOf_eq_tests, hzero, hspecial, ite_not]
  split_ifs with hlen hzero hspecial <;> cases op <;> simp [ClassOp.lengths, ClassOp.exponents, *]

/-- A transaction word as its four fields. -/
def fieldsEquiv : T38 ≃ (Len × ExpField) × (SignField × FracField) where
  toFun w := ((t38Len w, w32Exp (t38Bits w)), (w32Sign (t38Bits w), w32Frac (t38Bits w)))
  invFun p := t38Of p.1.1 (w32Of p.2.1 p.1.2 p.2.2)
  left_inv w := by simp [w32Of_fields, t38Of_fields]
  right_inv p := by simp

theorem card_bitVec (n : Nat) : Nat.card (BitVec n) = 2 ^ n := by
  rw [Nat.card_congr BitVec.equivFin.toEquiv, Nat.card_fin]

theorem finite_bitVec (n : Nat) : Finite (BitVec n) := Finite.of_equiv _ BitVec.equivFin.toEquiv.symm

theorem ncard_compl_bitVec {n : Nat} (S : Set (BitVec n)) : Sᶜ.ncard = 2 ^ n - S.ncard := by
  have := finite_bitVec n
  rw [← card_bitVec n, ← Set.ncard_add_ncard_compl S, Nat.add_sub_cancel_left]

theorem card_classOf (op : ClassOp) :
    Nat.card { w : T38 // classOf w = op } = op.lengths.ncard * op.exponents.ncard * 2 ^ 24 := by
  have hrow (w : T38) : classOf w = op ↔ (fieldsEquiv w).1 ∈ op.lengths ×ˢ op.exponents := by
    obtain ⟨len, s, e, f, rfl⟩ := exists_eq_t38Of_w32Of w
    rw [classOf_eq_iff]
    simp [fieldsEquiv]
  rw [Nat.card_congr ((fieldsEquiv.subtypeEquiv hrow).trans Equiv.prodSubtypeFstEquivSubtypeProd), Nat.card_prod,
    Nat.card_prod, card_bitVec, card_bitVec]
  congr 1
  exact Set.ncard_prod

/-- Settles O5: each row is a product of sets of lengths and exponents, with sign and fraction free. -/
theorem classPopulations : Obligations.ClassPopulations := by
  unfold Obligations.ClassPopulations
  have hpair : ({0x00#8, 0xFF#8} : Set ExpField).ncard = 2 := Set.ncard_pair (by decide)
  simp only [card_classOf, ClassOp.lengths, ClassOp.exponents, Set.ncard_singleton, ncard_compl_bitVec, hpair,
    Set.ncard_univ, card_bitVec]
  norm_num

end Sys2Proof
